-- ==== Sys2Proof/Word.lean ====
section
/-! DEFINITION. The widths of the E20 core (00_scope.md R5): words, memory addresses and the fields of an instruction word. -/

namespace Sys2Proof

/-- A 16-bit word: register, memory cell, pc, ALU result, instruction (R5, R9). -/
abbrev Word := BitVec 16

/-- A 13-bit memory address, naming one of the 8192 cells (R5, R33). -/
abbrev Addr := BitVec 13

/-- A 3-bit register field, naming one of the registers 0 to 7 (R5, R15). -/
abbrev RegIdx := BitVec 3

/-- A 3-bit opcode (R71). -/
abbrev Opcode := BitVec 3

/-- A 4-bit function code (R72). -/
abbrev Fn := BitVec 4

/-- A 7-bit immediate, as it stands in the word (R73). -/
abbrev Imm7 := BitVec 7

/-- A 13-bit immediate, as it stands in the word (R74). -/
abbrev Imm13 := BitVec 13

end Sys2Proof
end

