-- ==== Sys2Proof/Config.lean ====
section
/-! DEFINITION. What is fixed for a run: the function codes, the halt reading at a high pc, and a cache level's triple (00_scope.md R6, R7). -/

namespace Sys2Proof

/-- FUNC_CODES: the 4-bit function codes of the six instructions under opcode 000 (R78, R79). -/
structure FuncCodes where
  add : Fn
  sub : Fn
  or  : Fn
  and : Fn
  slt : Fn
  jr  : Fn
  deriving DecidableEq, Repr

/-- The six codes in the order the decoder asks for them (R80). -/
def FuncCodes.codes (fc : FuncCodes) : List Fn :=
  [fc.add, fc.sub, fc.or, fc.and, fc.slt, fc.jr]

/-- The default codes 0, 1, 2, 3, 4, 8 (R79). PRESUMED, unsafe: the spec takes them from the published E20 set, not from
its source (D1, log entry 5). -/
def FuncCodes.default : FuncCodes where
  add := 0b0000
  sub := 0b0001
  or  := 0b0010
  and := 0b0011
  slt := 0b0100
  jr  := 0b1000

/-- HALT_HIGH_PC: how the halt test reads a pc of 8192 or more (R104). -/
inductive HaltHighPc where
  /-- no word matches such a pc -/
  | noMatch
  /-- the word is compared with the low 13 bits of the pc -/
  | low13
  deriving DecidableEq, Repr

/-- The parameters of a run that the step control reads (R7). -/
structure Params where
  funcCodes  : FuncCodes
  haltHighPc : HaltHighPc
  deriving DecidableEq, Repr

/-- The spec's default parameters (R7). DESIGN CHOICE, unsafe: HALT_HIGH_PC = no_match is the spec's decision D4
(log entry 6); `Machine.stepWith` takes any parameters. -/
def Params.default : Params where
  funcCodes  := FuncCodes.default
  haltHighPc := .noMatch

/-- A cache level's configuration (size, associativity, blocksize), counted in memory cells (R23, R48). -/
structure Triple where
  size      : Nat
  assoc     : Nat
  blockSize : Nat
  deriving DecidableEq, Repr

/-- The row count, size / (associativity * blocksize) (R48). -/
def Triple.rowCount (t : Triple) : Nat := t.size / (t.assoc * t.blockSize)

end Sys2Proof
end

