-- ==== Sys2Proof/Syntax.lean ====
section
/-! DEFINITION. The instructions of the E20 core: one constructor per row of spec/opcode_table.json, with the operands the decoder of 30_encoding.md R80 gives it. -/

namespace Sys2Proof

/-- The 13 instructions and the `undefined` instruction. Operands stand in the order of their fields in the word
(R72 to R74): rA, then rB, then rC or the immediate. -/
inductive Instr where
  /-- R89: x[rC] <- x[rA] + x[rB] -/
  | add (rA rB rC : RegIdx)
  /-- R90: x[rC] <- x[rA] - x[rB] -/
  | sub (rA rB rC : RegIdx)
  /-- R91: x[rC] <- x[rA] or x[rB] -/
  | or (rA rB rC : RegIdx)
  /-- R92: x[rC] <- x[rA] and x[rB] -/
  | and (rA rB rC : RegIdx)
  /-- R93: x[rC] <- (x[rA] < x[rB], unsigned) -/
  | slt (rA rB rC : RegIdx)
  /-- R100: pc <- x[rA]; the word's rB and rC fields are ignored (R81) -/
  | jr (rA : RegIdx)
  /-- R94: x[rB] <- x[rA] + sext_16(imm) -/
  | addi (rA rB : RegIdx) (imm : Imm7)
  /-- R102: pc <- imm -/
  | j (imm : Imm13)
  /-- R103: x[7] <- pc + 1; pc <- imm -/
  | jal (imm : Imm13)
  /-- R96: x[rB] <- M[EA(x[rA], imm)] -/
  | lw (rA rB : RegIdx) (imm : Imm7)
  /-- R97: M[EA(x[rA], imm)] <- x[rB] -/
  | sw (rA rB : RegIdx) (imm : Imm7)
  /-- R101: pc-relative jump if x[rA] = x[rB] -/
  | jeq (rA rB : RegIdx) (imm : Imm7)
  /-- R95: x[rB] <- (x[rA] < sext_16(imm), unsigned) -/
  | slti (rA rB : RegIdx) (imm : Imm7)
  /-- R107: the no-op of every function code that is none of the six; all fields ignored -/
  | undefined
  deriving DecidableEq, Repr

/-- The registers an instruction reads, as the table of 10_state.md R16 lists them. -/
def Instr.reads : Instr → List RegIdx
  | .add rA rB _  => [rA, rB]
  | .sub rA rB _  => [rA, rB]
  | .or rA rB _   => [rA, rB]
  | .and rA rB _  => [rA, rB]
  | .slt rA rB _  => [rA, rB]
  | .jr rA        => [rA]
  | .addi rA _ _  => [rA]
  | .j _          => []
  | .jal _        => []
  | .lw rA _ _    => [rA]
  | .sw rA rB _   => [rA, rB]
  | .jeq rA rB _  => [rA, rB]
  | .slti rA _ _  => [rA]
  | .undefined    => []

/-- The one register an instruction writes, if it writes one, as the table of 10_state.md R16 lists it. -/
def Instr.writes : Instr → Option RegIdx
  | .add _ _ rC   => some rC
  | .sub _ _ rC   => some rC
  | .or _ _ rC    => some rC
  | .and _ _ rC   => some rC
  | .slt _ _ rC   => some rC
  | .jr _         => none
  | .addi _ rB _  => some rB
  | .j _          => none
  | .jal _        => some 7
  | .lw _ rB _    => some rB
  | .sw _ _ _     => none
  | .jeq _ _ _    => none
  | .slti _ rB _  => some rB
  | .undefined    => none

/-- `movi $B, imm` is `addi $B, $0, imm` (R86). -/
def Instr.movi (rB : RegIdx) (imm : Imm7) : Instr := .addi 0 rB imm

/-- `nop` is `add $0, $0, $0` (R86). -/
def Instr.nop : Instr := .add 0 0 0

/-- `halt` at address a is `j a`, the jump to itself (R86). -/
def Instr.haltAt (a : Addr) : Instr := .j a

end Sys2Proof
end

