-- ==== Sys2Proof/WellFormed.lean ====
section
/-! DEFINITION. The checks on what a run is given: function codes, cache triples, the configuration's integers, the image's cells. An instruction needs no check: its operands' types hold exactly the values its fields can hold, and the hardware has no illegal or reserved encoding (30_encoding.md R83; log entry 29). -/

namespace Sys2Proof

/-- Any six DISTINCT 4-bit values may be the function codes (R79). -/
abbrev FuncCodes.Distinct (fc : FuncCodes) : Prop := fc.codes.Nodup

/-- A triple is legal when its three numbers are at least 1 and size is a multiple of assoc * blocksize (R48).
DESIGN CHOICE of the spec (D5), safe: log entry 9. -/
abbrev Triple.Legal (t : Triple) : Prop :=
  1 ≤ t.size ∧ 1 ≤ t.assoc ∧ 1 ≤ t.blockSize ∧ t.size % (t.assoc * t.blockSize) = 0

/-- The triple that three configuration integers give, if they are a legal one (R48, R112). -/
def Triple.ofInts? (size assoc blockSize : Int) : Option Triple :=
  if 1 ≤ size ∧ 1 ≤ assoc ∧ 1 ≤ blockSize then
    let t : Triple := ⟨size.toNat, assoc.toNat, blockSize.toNat⟩
    if t.Legal then some t else none
  else none

/-- An image cell is legal when its address is in 0..8191 and its value in 0..65535 (R119, D16). -/
abbrev ImageCellLegal (cell : Int × Int) : Prop :=
  (0 ≤ cell.1 ∧ cell.1 ≤ 8191) ∧ (0 ≤ cell.2 ∧ cell.2 ≤ 65535)

end Sys2Proof
end

