-- ==== Sys2Proof/Decode.lean ====
section
/-! DEFINITION. The decoder (30_encoding.md R70 to R84), total on every word, and after it the encoder. -/

namespace Sys2Proof

/-! The fields of a word (R71 to R74). -/

/-- op = w[15:13] -/
def opField (w : Word) : Opcode := w.extractLsb' 13 3
/-- rA = w[12:10] -/
def rAField (w : Word) : RegIdx := w.extractLsb' 10 3
/-- rB = w[9:7] -/
def rBField (w : Word) : RegIdx := w.extractLsb' 7 3
/-- rC = w[6:4] -/
def rCField (w : Word) : RegIdx := w.extractLsb' 4 3
/-- fn = w[3:0] -/
def fnField (w : Word) : Fn := w.extractLsb' 0 4
/-- imm7 = w[6:0] -/
def imm7Field (w : Word) : Imm7 := w.extractLsb' 0 7
/-- imm13 = w[12:0] -/
def imm13Field (w : Word) : Imm13 := w.extractLsb' 0 13

/-- Opcode 000: the function code selects the instruction, and every code that is none of the six gives `undefined`
(R78, R80, R82). jr keeps only rA (R81). -/
def decodeFn (fc : FuncCodes) (w : Word) : Instr :=
  if fnField w = fc.add then .add (rAField w) (rBField w) (rCField w)
  else if fnField w = fc.sub then .sub (rAField w) (rBField w) (rCField w)
  else if fnField w = fc.or then .or (rAField w) (rBField w) (rCField w)
  else if fnField w = fc.and then .and (rAField w) (rBField w) (rCField w)
  else if fnField w = fc.slt then .slt (rAField w) (rBField w) (rCField w)
  else if fnField w = fc.jr then .jr (rAField w)
  else .undefined

/-- The decoder under any function codes (R80). Its last branch is op = 111, the only opcode left (R77). -/
def decodeWith (fc : FuncCodes) (w : Word) : Instr :=
  if opField w = 0b000 then decodeFn fc w
  else if opField w = 0b001 then .addi (rAField w) (rBField w) (imm7Field w)
  else if opField w = 0b010 then .j (imm13Field w)
  else if opField w = 0b011 then .jal (imm13Field w)
  else if opField w = 0b100 then .lw (rAField w) (rBField w) (imm7Field w)
  else if opField w = 0b101 then .sw (rAField w) (rBField w) (imm7Field w)
  else if opField w = 0b110 then .jeq (rAField w) (rBField w) (imm7Field w)
  else .slti (rAField w) (rBField w) (imm7Field w)

/-- The decoder under the default function codes (R79, R80). -/
def decode (w : Word) : Instr := decodeWith FuncCodes.default w

/-- The word of an instruction whose bits are the low `nbits` of `w`, every bit above them 0 (the host's numbering: bit 0 is
the least significant). An instruction is one word (R70). -/
def tableWord (nbits w : Nat) : Word := BitVec.ofNat 16 (w % 2 ^ nbits)

/-- What the decoder reads from such a word; no instruction is longer than 16 bits (R70), so a longer row is refused. -/
def decodeTableWord (nbits w : Nat) : Option Instr :=
  if nbits ≤ 16 then some (decode (tableWord nbits w)) else none

/-! The encoder. -/

/-- Format RRR (R72). -/
def wordRRR (fn : Fn) (rA rB rC : RegIdx) : Word := 0b000#3 ++ rA ++ rB ++ rC ++ fn

/-- Format RRI (R73). -/
def wordRRI (op : Opcode) (rA rB : RegIdx) (imm : Imm7) : Word := op ++ rA ++ rB ++ imm

/-- Format I13 (R74). -/
def wordI13 (op : Opcode) (imm : Imm13) : Word := op ++ imm

/-- The least 4-bit value that is none of the six function codes. -/
def FuncCodes.unusedFn (fc : FuncCodes) : Fn :=
  (([0, 1, 2, 3, 4, 5, 6] : List Fn).find? (fun f => decide (f ∉ fc.codes))).getD 15

/-- The encoder under any function codes (R72 to R79). jr is written with rB = rC = 0 (R85). An undefined word has many
encodings (R82); DESIGN CHOICE, safe: the one with the least unused function code and zero registers (log entry 25). -/
def encodeWith (fc : FuncCodes) (i : Instr) : Word :=
  match i with
  | .add rA rB rC   => wordRRR fc.add rA rB rC
  | .sub rA rB rC   => wordRRR fc.sub rA rB rC
  | .or rA rB rC    => wordRRR fc.or rA rB rC
  | .and rA rB rC   => wordRRR fc.and rA rB rC
  | .slt rA rB rC   => wordRRR fc.slt rA rB rC
  | .jr rA          => wordRRR fc.jr rA 0 0
  | .addi rA rB imm => wordRRI 0b001 rA rB imm
  | .j imm          => wordI13 0b010 imm
  | .jal imm        => wordI13 0b011 imm
  | .lw rA rB imm   => wordRRI 0b100 rA rB imm
  | .sw rA rB imm   => wordRRI 0b101 rA rB imm
  | .jeq rA rB imm  => wordRRI 0b110 rA rB imm
  | .slti rA rB imm => wordRRI 0b111 rA rB imm
  | .undefined      => wordRRR fc.unusedFn 0 0 0

/-- The encoder under the default function codes. -/
def encode (i : Instr) : Word := encodeWith FuncCodes.default i

end Sys2Proof
end

