-- ==== Sys2Proof/Machine/State.lean ====
section
/-! DEFINITION. The state of the core (10_state.md R12), the reasons a step or a boot stops, and the state after reset. -/

namespace Sys2Proof.Machine

/-- The memory M (R24): the cells whose value is not 0, as (address, cell) pairs with strictly rising addresses. An unlisted
cell reads as 0 (R123). DESIGN CHOICE, safe: 16-bit cells, not bytes, because the spec has no byte address (R38; log
entry 1). -/
abbrev Memory := List (Nat × Word)

/-- One slot of a cache row (R25). -/
inductive Slot where
  | empty
  | occupied (blockId tag : Nat)
  deriving DecidableEq, Repr

/-- The recency map rec_C (R26): (block_id, counter) pairs with strictly rising block ids. -/
abbrev RecencyMap := List (Nat × Nat)

/-- One cache level: its configuration (R23), its rows of slots (R25) and its recency map (R26). -/
structure Cache where
  cfg     : Triple
  rows    : List (List Slot)
  recency : RecencyMap
  deriving DecidableEq, Repr

/-- Zero, one or two cache levels (R12, R46). -/
inductive Hierarchy where
  | noCache
  | oneLevel (l1 : Cache)
  | twoLevels (l1 l2 : Cache)
  deriving DecidableEq, Repr

/-- The cache a record names (R65). -/
inductive LevelName where
  | l1
  | l2
  deriving DecidableEq, Repr

/-- The classification of an access: HIT, MISS or SW (R46, R65). -/
inductive AccessClass where
  | hit
  | miss
  | sw
  deriving DecidableEq, Repr

/-- The two kinds of access (R62). -/
inductive AccessKind where
  | load
  | store
  deriving DecidableEq, Repr

/-- An access record (R65): the pc is the full 16-bit one (D9, log entry 15). -/
structure Record where
  level : LevelName
  cls   : AccessClass
  pc    : Word
  ea    : Addr
  row   : Nat
  deriving DecidableEq, Repr

/-- The machine's state (R12), with the stream of access records it has emitted so far, oldest first (R65; the model's own
field, log entry 22). -/
structure State where
  regs   : Vector Word 8
  pc     : Word
  mem    : Memory
  caches : Hierarchy
  halted : Bool
  trace  : List Record
  deriving DecidableEq, Repr

/-- Why a step stops. -/
inductive Fault where
  /-- Raised by the step of a core that has halted: "a halted core has no step" (R27, R28). Safe: the model gives such a
  core no next state at all (log entry 7). -/
  | halted
  deriving DecidableEq, Repr

/-- Why something is refused. -/
inductive Refusal where
  /-- Raised by an arm of exec whose instruction has no meaning yet; no arm does. Safe: no next state is given. -/
  | notModelled (mnemonic : String)
  /-- Raised by `boot` on a bad cache configuration, before any state exists (R112). Safe: no state is given. -/
  | configError
  /-- Raised by `boot` on an image that names an address outside 0..8191 or a value outside 0..65535 (R119). Safe: no state
  is given. -/
  | imageError
  deriving DecidableEq, Repr

/-- The state after reset with no cache configured and nothing loaded (R121 to R125). PRESUMED, unsafe: registers and pc 0
(log entries 3, 4); `boot` gives the reset state of any configuration and image. -/
def State.reset : State where
  regs   := Vector.replicate 8 0
  pc     := 0
  mem    := []
  caches := .noCache
  halted := false
  trace  := []

end Sys2Proof.Machine
end

