-- ==== Sys2Proof/Machine/Cache.lean ====
section
/-! DEFINITION. The cache controller (20_memory.md R46 to R69): address decomposition, recency, placement, the access of one level, and the hierarchy. -/

namespace Sys2Proof.Machine

/-! Address decomposition (R49). -/

/-- block_id = a div bs -/
def blockOf (t : Triple) (a : Addr) : Nat := a.toNat / t.blockSize
/-- row = block_id mod rows -/
def rowOf (t : Triple) (a : Addr) : Nat := blockOf t a % t.rowCount
/-- tag = block_id div rows -/
def tagOf (t : Triple) (a : Addr) : Nat := blockOf t a / t.rowCount
/-- The line an access at a places. -/
def lineOf (t : Triple) (a : Addr) : Slot := .occupied (blockOf t a) (tagOf t a)

/-! The recency map (R26, R57, R58). Counters are unbounded (D18, log entry 17). -/

/-- rec[b], none where b is not in the map. -/
def recFind (m : RecencyMap) (b : Nat) : Option Nat :=
  match m with
  | [] => none
  | (k, n) :: rest => if k = b then some n else recFind rest b

/-- The map without b. -/
def recErase (m : RecencyMap) (b : Nat) : RecencyMap := m.filter (fun e => decide (e.1 ≠ b))

/-- The map with a new entry, in its place by block id. -/
def recInsert (m : RecencyMap) (b n : Nat) : RecencyMap :=
  match m with
  | [] => [(b, n)]
  | (k, x) :: rest => if b < k then (b, n) :: (k, x) :: rest else (k, x) :: recInsert rest b n

/-- Touch: every other block's counter goes up by 1, b's becomes 0, in an entry made if there was none (R58). -/
def recTouch (m : RecencyMap) (b : Nat) : RecencyMap :=
  recInsert ((recErase m b).map (fun e => (e.1, e.2 + 1))) b 0

/-! Slots and rows (R25). -/

/-- The slots of row r. Total: a row that the cache does not have is read as one with no slot (log entry 26). -/
def Cache.row (c : Cache) (r : Nat) : List Slot := c.rows[r]?.getD []

/-- Slot i of row r := x. -/
def Cache.setSlot (c : Cache) (r i : Nat) (x : Slot) : Cache :=
  { c with rows := c.rows.set r ((c.row r).set i x) }

/-- A slot matches a block when it is occupied by it (R50). -/
def Slot.holds (x : Slot) (b : Nat) : Bool :=
  match x with
  | .empty => false
  | .occupied b' _ => decide (b' = b)

/-- Whether some slot of row r matches block b (R50, R52). -/
def Cache.rowHolds (c : Cache) (r b : Nat) : Bool := (c.row r).any (fun x => x.holds b)

/-- The lowest index of an empty slot, if there is one (R54). DESIGN CHOICE of the spec (D6), unsafe: log entry 12. -/
def firstEmpty (row : List Slot) : Option Nat :=
  match row with
  | [] => none
  | .empty :: _ => some 0
  | .occupied _ _ :: rest => (firstEmpty rest).map (· + 1)

/-! Victim selection (R55). -/

/-- The key of a slot: its block's counter, or +infinity for an orphan line (R55, R56). -/
inductive VictimKey where
  | counter (n : Nat)
  | infinite
  deriving DecidableEq, Repr

/-- Strictly smaller, +infinity above every counter. -/
def VictimKey.less (x y : VictimKey) : Bool :=
  match x, y with
  | .counter m, .counter n => decide (m < n)
  | .counter _, .infinite => true
  | .infinite, _ => false

/-- key(i) (R55). DESIGN CHOICE of the spec (D8), unsafe: an orphan counts as larger than every counter (log entry 14).
An empty slot is never asked for: a victim is chosen only in a full row. -/
def victimKey (m : RecencyMap) (x : Slot) : VictimKey :=
  match x with
  | .empty => .counter 0
  | .occupied b _ =>
    match recFind m b with
    | some n => .counter n
    | none => .infinite

/-- The lowest index whose key is the largest. -/
def firstLargest (keys : List VictimKey) : Nat :=
  match keys with
  | [] => 0
  | k :: rest => if rest.any (fun k' => k.less k') then firstLargest rest + 1 else 0

/-- Victim(C, row) (R55). -/
def Cache.victim (c : Cache) (r : Nat) : Nat := firstLargest ((c.row r).map (victimKey c.recency))

/-- Evict(C, blockid(x)): the block leaves the recency map (R57). -/
def Cache.evict (c : Cache) (x : Slot) : Cache :=
  match x with
  | .empty => c
  | .occupied b _ => { c with recency := recErase c.recency b }

/-- Touch(C, b) (R58). -/
def Cache.touch (c : Cache) (b : Nat) : Cache := { c with recency := recTouch c.recency b }

/-- Place(C, row, b, t), shared by a load miss and a store (R54). DESIGN CHOICE of the spec (D7), unsafe: no slot is looked
up first, so a block may come to hold two slots (log entry 13). -/
def Cache.place (c : Cache) (r b t : Nat) : Cache :=
  match firstEmpty (c.row r) with
  | some i => (c.setSlot r i (.occupied b t)).touch b
  | none =>
    let i := c.victim r
    ((c.evict ((c.row r)[i]?.getD Slot.empty)).setSlot r i (.occupied b t)).touch b

/-! One level's access (R51 to R54, R61). -/

/-- A direct-mapped level (R51, R53). -/
def Cache.accessDirect (c : Cache) (kind : AccessKind) (a : Addr) : AccessClass × Cache :=
  let r := rowOf c.cfg a
  match kind with
  | .load =>
    if ((c.row r)[0]?.getD Slot.empty).holds (blockOf c.cfg a) then (.hit, c)
    else (.miss, c.setSlot r 0 (lineOf c.cfg a))
  | .store => (.sw, c.setSlot r 0 (lineOf c.cfg a))

/-- A set-associative level (R52, R54). -/
def Cache.accessAssoc (c : Cache) (kind : AccessKind) (a : Addr) : AccessClass × Cache :=
  let r := rowOf c.cfg a
  let b := blockOf c.cfg a
  match kind with
  | .load =>
    if c.rowHolds r b then (.hit, c.touch b)
    else (.miss, c.place r b (tagOf c.cfg a))
  | .store => (.sw, c.place r b (tagOf c.cfg a))

/-- Access(C, kind, a): each level by its own associativity (R61). DESIGN CHOICE of the spec (D10), unsafe: log entry 16. -/
def Cache.access (c : Cache) (kind : AccessKind) (a : Addr) : AccessClass × Cache :=
  if c.cfg.assoc = 1 then c.accessDirect kind a else c.accessAssoc kind a

/-! The hierarchy (R62 to R66). -/

/-- Whether L2 is consulted, given L1's answer (R62): on every store, and on a load that misses. -/
def consultsL2 (kind : AccessKind) (c1 : AccessClass) : Bool :=
  match kind with
  | .store => true
  | .load => decide (c1 = .miss)

/-- CacheAccess(kind, a, pc): the hierarchy afterwards and the records emitted, L1's before L2's (R62, R65). -/
def Hierarchy.access (h : Hierarchy) (kind : AccessKind) (a : Addr) (pc : Word) : Hierarchy × List Record :=
  match h with
  | .noCache => (.noCache, [])
  | .oneLevel l1 =>
    let (c1, l1') := l1.access kind a
    (.oneLevel l1', [⟨.l1, c1, pc, a, rowOf l1.cfg a⟩])
  | .twoLevels l1 l2 =>
    let (c1, l1') := l1.access kind a
    if consultsL2 kind c1 then
      let (c2, l2') := l2.access kind a
      (.twoLevels l1' l2', [⟨.l1, c1, pc, a, rowOf l1.cfg a⟩, ⟨.l2, c2, pc, a, rowOf l2.cfg a⟩])
    else (.twoLevels l1' l2, [⟨.l1, c1, pc, a, rowOf l1.cfg a⟩])

/-- A level as it is created: every slot empty, no recency entry (R124). -/
def Cache.fresh (t : Triple) : Cache where
  cfg := t
  rows := List.replicate t.rowCount (List.replicate t.assoc Slot.empty)
  recency := []

end Sys2Proof.Machine
end

