-- ==== Sys2Proof/Machine/Flags.lean ====
section
/-! DEFINITION. The core has no flags or condition codes (10_state.md R21): a comparison's result goes into a register (slt, slti) or chooses the next pc (jeq). This file holds the two comparisons of the ALU (40_alu.md R88). -/

namespace Sys2Proof.Machine

/-- ALU.ltu: 1 if a < b as unsigned 16-bit values, else 0. -/
def aluLtu (a b : Word) : Word := if a.toNat < b.toNat then 1 else 0

/-- ALU.eq. -/
def aluEq (a b : Word) : Bool := decide (a = b)

end Sys2Proof.Machine
end

