-- ==== Sys2Proof/Machine/Memory.lean ====
section
/-! DEFINITION. The memory primitives (20_memory.md R36) over the sparse list of cells. -/

namespace Sys2Proof.Machine

/-- What an unlisted cell reads as (R123). PRESUMED, unsafe: 0 is the spec's decision D3 (log entry 2). -/
def unlistedCell : Word := 0

/-- The cell at address a. -/
def cellAt (m : Memory) (a : Nat) : Word :=
  match m with
  | [] => unlistedCell
  | (k, v) :: rest => if k = a then v else cellAt rest a

/-- The list with cell a holding v: the value an unlisted cell reads as is not listed. -/
def setCell (m : Memory) (a : Nat) (v : Word) : Memory :=
  match m with
  | [] => if v = unlistedCell then [] else [(a, v)]
  | (k, x) :: rest =>
    if a < k then (if v = unlistedCell then (k, x) :: rest else (a, v) :: (k, x) :: rest)
    else if a = k then (if v = unlistedCell then rest else (a, v) :: rest)
    else (k, x) :: setCell rest a v

/-- MemRead(a, 1). -/
def Memory.read (m : Memory) (a : Addr) : Word := cellAt m a.toNat

/-- MemWrite(a, 1, v). -/
def Memory.write (m : Memory) (a : Addr) (v : Word) : Memory := setCell m a.toNat v

/-- The canonical form: strictly rising addresses, every address one of the 8192, no cell listed that holds what an unlisted
one reads as. -/
def Memory.wf (m : Memory) : Bool :=
  decide (m.Pairwise (fun c d => c.1 < d.1)) && m.all (fun c => decide (c.1 < 8192 ∧ c.2 ≠ unlistedCell))

end Sys2Proof.Machine
end

