-- ==== Sys2Proof/Machine/Operands.lean ====
section
/-! DEFINITION. Operands: the immediates' extensions (30_encoding.md R75, R76), the 13-bit reduction and the address translator (20_memory.md R34). -/

namespace Sys2Proof.Machine

/-- sext_16: v if v < 64, else v + 65408 (R75). -/
def sext16 (v : Imm7) : Word :=
  if v.toNat < 64 then BitVec.ofNat 16 v.toNat else BitVec.ofNat 16 (v.toNat + 65408)

/-- zext_16: v unchanged, as a 16-bit value (R76). -/
def zext16 (v : Imm13) : Word := v.setWidth 16

/-- low13: v mod 8192 (R10). -/
def low13 (v : Word) : Addr := v.setWidth 13

/-- The address translator EA: the 16-bit sum, then its low 13 bits (R34; C3, log entry 20). -/
def effectiveAddr (base : Word) (imm : Imm7) : Addr := low13 (base + sext16 imm)

end Sys2Proof.Machine
end

