-- ==== Sys2Proof/Machine/Ops.lean ====
section
/-! DEFINITION. The named operations the meanings share: the ALU (40_alu.md R88), the register file, the pc, the memory and cache accesses, fetch, and the halt test and effect. There is no exception operation: nothing on this hardware takes an exception or returns from one (60_exceptions.md R108, R111). -/

namespace Sys2Proof.Machine

/-! The ALU (R88). BitVec arithmetic on 16 bits is arithmetic modulo 65536 (R9). -/

/-- ALU.add -/
def aluAdd (a b : Word) : Word := a + b
/-- ALU.sub -/
def aluSub (a b : Word) : Word := a - b
/-- ALU.or -/
def aluOr (a b : Word) : Word := a ||| b
/-- ALU.and -/
def aluAnd (a b : Word) : Word := a &&& b

/-! Registers (R13, R14). Register 0 is hard-wired: its slot is neither read nor written (log entry 24). -/

/-- x[i] -/
def State.readReg (s : State) (i : RegIdx) : Word := if i = 0 then 0 else s.regs[i.toNat]'i.isLt

/-- The register array after x[i] <- v. -/
def writeRegs (regs : Vector Word 8) (i : RegIdx) (v : Word) : Vector Word 8 :=
  if i = 0 then regs else regs.set i.toNat v i.isLt

/-- x[i] <- v -/
def State.writeReg (s : State) (i : RegIdx) (v : Word) : State := { s with regs := writeRegs s.regs i v }

/-! The pc (R17 to R19). -/

/-- pc <- v -/
def State.setPc (s : State) (v : Word) : State := { s with pc := v }

/-- pc + 1, modulo 65536 (R19, R99). -/
def State.nextPc (s : State) : Word := s.pc + 1

/-- The sequential next pc (R99). -/
def State.advance (s : State) : State := s.setPc s.nextPc

/-- x[d] <- v and the sequential next pc: what add, sub, or, and, slt, addi, slti and lw end with (R89 to R96). -/
def State.writeAndAdvance (s : State) (d : RegIdx) (v : Word) : State := (s.writeReg d v).advance

/-! Memory and caches. -/

/-- The effective address of an lw or sw: x[rA] and the offset (R34). -/
def State.dataAddr (s : State) (rA : RegIdx) (imm : Imm7) : Addr := effectiveAddr (s.readReg rA) imm

/-- MemRead(a, 1) (R36). -/
def State.readMem (s : State) (a : Addr) : Word := s.mem.read a

/-- MemWrite(a, 1, v) (R36). -/
def State.writeMem (s : State) (a : Addr) (v : Word) : State := { s with mem := s.mem.write a v }

/-- CacheAccess(kind, a, pc) at the pc of this state: the hierarchy observes the access and its records are appended to the
trace (R62, R65). -/
def State.cacheAccess (s : State) (kind : AccessKind) (a : Addr) : State :=
  { s with
    caches := (s.caches.access kind a s.pc).1
    trace := s.trace ++ (s.caches.access kind a s.pc).2 }

/-! Fetch and halt. -/

/-- The address the next instruction is fetched from: the low 13 bits of the pc (R18). -/
def State.fetchAddr (s : State) : Addr := low13 s.pc

/-- The word of this step (R18, R28). -/
def State.fetch (s : State) : Word := s.readMem s.fetchAddr

/-- IsHalt(w, pc) (R104). -/
def isHalt (policy : HaltHighPc) (w pc : Word) : Bool :=
  match policy with
  | .noMatch => decide (pc.toNat < 8192 ∧ w.toNat = 0x4000 + pc.toNat)
  | .low13 => decide (w.toNat = 0x4000 + (low13 pc).toNat)

/-- The effect of the halt sentinel: `halted` becomes true and nothing else changes (R105). -/
def State.halt (s : State) : State := { s with halted := true }

/-- The state with an instruction's word stored where the next fetch reads (the host's `withFetchWord`). -/
def State.placeWord (s : State) (w : Word) : State := s.writeMem s.fetchAddr w

end Sys2Proof.Machine
end

