-- ==== Sys2Proof/Machine/AluImm.lean ====
section
/-! DEFINITION. The register-immediate ALU instructions addi and slti (40_alu.md R94, R95). -/

namespace Sys2Proof.Machine

/-- addi (R94) -/
def execAddi (rA rB : RegIdx) (imm : Imm7) (s : State) : Host.Outcome State Fault Refusal :=
  .next (s.writeAndAdvance rB (aluAdd (s.readReg rA) (sext16 imm)))

/-- slti (R95). The comparison is unsigned: DESIGN CHOICE of the spec (D17), unsafe (log entry 18). A write to register 0 is
suppressed in both outcomes (C4, D11, log entry 19). -/
def execSlti (rA rB : RegIdx) (imm : Imm7) (s : State) : Host.Outcome State Fault Refusal :=
  .next (s.writeAndAdvance rB (aluLtu (s.readReg rA) (sext16 imm)))

end Sys2Proof.Machine
end

