-- ==== Sys2Proof/Machine/AluReg.lean ====
section
/-! DEFINITION. The register-register ALU instructions add, sub, or, and, slt (40_alu.md R89 to R93). -/

namespace Sys2Proof.Machine

/-- add (R89) -/
def execAdd (rA rB rC : RegIdx) (s : State) : Host.Outcome State Fault Refusal :=
  .next (s.writeAndAdvance rC (aluAdd (s.readReg rA) (s.readReg rB)))

/-- sub (R90) -/
def execSub (rA rB rC : RegIdx) (s : State) : Host.Outcome State Fault Refusal :=
  .next (s.writeAndAdvance rC (aluSub (s.readReg rA) (s.readReg rB)))

/-- or (R91) -/
def execOr (rA rB rC : RegIdx) (s : State) : Host.Outcome State Fault Refusal :=
  .next (s.writeAndAdvance rC (aluOr (s.readReg rA) (s.readReg rB)))

/-- and (R92) -/
def execAnd (rA rB rC : RegIdx) (s : State) : Host.Outcome State Fault Refusal :=
  .next (s.writeAndAdvance rC (aluAnd (s.readReg rA) (s.readReg rB)))

/-- slt, unsigned (R93) -/
def execSlt (rA rB rC : RegIdx) (s : State) : Host.Outcome State Fault Refusal :=
  .next (s.writeAndAdvance rC (aluLtu (s.readReg rA) (s.readReg rB)))

end Sys2Proof.Machine
end

