-- ==== Sys2Proof/Machine/Control.lean ====
section
/-! DEFINITION. The control transfers jr, jeq, j, jal (42_control.md R100 to R103). No delay slot, no annulment (R106). -/

namespace Sys2Proof.Machine

/-- jr (R100) -/
def execJr (rA : RegIdx) (s : State) : Host.Outcome State Fault Refusal :=
  .next (s.setPc (s.readReg rA))

/-- jeq (R101) -/
def execJeq (rA rB : RegIdx) (imm : Imm7) (s : State) : Host.Outcome State Fault Refusal :=
  .next (if aluEq (s.readReg rA) (s.readReg rB) then s.setPc (s.nextPc + sext16 imm) else s.advance)

/-- j (R102) -/
def execJ (imm : Imm13) (s : State) : Host.Outcome State Fault Refusal :=
  .next (s.setPc (zext16 imm))

/-- The register jal links into (R16, R103). -/
def linkReg : RegIdx := 7

/-- jal (R103) -/
def execJal (imm : Imm13) (s : State) : Host.Outcome State Fault Refusal :=
  .next ((s.writeReg linkReg s.nextPc).setPc (zext16 imm))

end Sys2Proof.Machine
end

