-- ==== Sys2Proof/Machine/LoadStore.lean ====
section
/-! DEFINITION. lw and sw (41_load_store.md R96 to R98). The cache access stands in the meaning, before the register or memory effect, as R96 and R97 write it (log entry 21). -/

namespace Sys2Proof.Machine

/-- lw (R96) -/
def execLw (rA rB : RegIdx) (imm : Imm7) (s : State) : Host.Outcome State Fault Refusal :=
  let ea := s.dataAddr rA imm
  .next ((s.cacheAccess .load ea).writeAndAdvance rB (s.readMem ea))

/-- sw (R97) -/
def execSw (rA rB : RegIdx) (imm : Imm7) (s : State) : Host.Outcome State Fault Refusal :=
  let ea := s.dataAddr rA imm
  .next ((s.cacheAccess .store ea).writeMem ea (s.readReg rB)).advance

end Sys2Proof.Machine
end

