-- ==== Sys2Proof/Machine/Undefined.lean ====
section
/-! DEFINITION. The undefined instruction (43_undefined.md R107): a no-op that only advances the pc, by the spec's deliberate policy. -/

namespace Sys2Proof.Machine

/-- undefined (R107) -/
def execUndefined (s : State) : Host.Outcome State Fault Refusal := .next s.advance

end Sys2Proof.Machine
end

