-- ==== Sys2Proof/Machine/StepControl.lean ====
section
/-! DEFINITION. The step control (10_state.md R28): fetch, the halt test, decode, execute; and the host's `step()` transaction (60_exceptions.md R119). -/

namespace Sys2Proof.Machine

/-- One step under any parameters (R28). A halted core has no step: DEDUCED, safe, a fault of its own (log entry 7). -/
def stepWith (p : Params) (s : State) : Host.Outcome State Fault Refusal :=
  if s.halted then .fault .halted
  else if isHalt p.haltHighPc s.fetch s.pc then .next s.halt
  else exec (decodeWith p.funcCodes s.fetch) s

/-- What a `step()` transaction answers (R119): the state it leaves, `halted`, and the records of the step. -/
structure StepReport where
  after   : State
  halted  : Bool
  records : List Record
  deriving DecidableEq, Repr

/-- The report of a step from s to t: the records are those t's trace has beyond s's (R65, R66). -/
def stepReport (s t : State) : StepReport where
  after   := t
  halted  := t.halted
  records := t.trace.drop s.trace.length

/-- The host's `step()` (R119), for any parameters. -/
def stepTransaction (p : Params) (s : State) : Host.Outcome StepReport Fault Refusal :=
  match stepWith p s with
  | .next t => .next (stepReport s t)
  | .fault r => .fault r
  | .refused r => .refused r

end Sys2Proof.Machine
end

