-- ==== Sys2Proof/Machine/Step.lean ====
section
/-! DEFINITION. The step under the spec's default parameters (00_scope.md R7), and the host's placing of one instruction where the next step fetches. -/

namespace Sys2Proof.Machine

/-- One step (R28), with the default parameters. -/
def step (s : State) : Host.Outcome State Fault Refusal := stepWith Params.default s

/-- s with the instruction stored in the cell the next step fetches from. It stands for the host's load (R119): a program is
loaded from outside the core (log entry 11). -/
def State.withFetchWord (s : State) (nbits w : Nat) : State := s.placeWord (tableWord nbits w)

end Sys2Proof.Machine
end

