-- ==== Sys2Proof/Machine/Boot.lean ====
section
/-! DEFINITION. The host's transactions before and after a run (60_exceptions.md R119): configure, load, the boot that joins them (70_reset_and_hazards.md R126), and readout. -/

namespace Sys2Proof.Machine

/-- configure: no configuration gives zero levels, 3 integers one level, 6 integers two; every other count and every illegal
triple is a configuration error, `none` (R112, R48). DESIGN CHOICE of the spec (D5, D15), safe: log entries 8, 9. -/
def configure (config : Option (List Int)) : Option Hierarchy :=
  match config with
  | none => some .noCache
  | some [size, assoc, bs] => (Triple.ofInts? size assoc bs).map (fun t => .oneLevel (Cache.fresh t))
  | some [size1, assoc1, bs1, size2, assoc2, bs2] =>
    match Triple.ofInts? size1 assoc1 bs1, Triple.ofInts? size2 assoc2 bs2 with
    | some t1, some t2 => some (.twoLevels (Cache.fresh t1) (Cache.fresh t2))
    | _, _ => none
  | some _ => none

/-- load: the cells the image names, each written in turn into a memory that holds 0 elsewhere; `none` for an image that
names an address outside 0..8191 or a value outside 0..65535 (R119, R123). DESIGN CHOICE, unsafe: of two values for one
address the later one stands (log entry 10). -/
def loadFrom (m : Memory) (image : List (Int × Int)) : Option Memory :=
  match image with
  | [] => some m
  | cell :: rest =>
    if ImageCellLegal cell then
      loadFrom (m.write (BitVec.ofNat 13 cell.1.toNat) (BitVec.ofNat 16 cell.2.toNat)) rest
    else none

/-- load into empty memory. -/
def loadImage (image : List (Int × Int)) : Option Memory := loadFrom [] image

/-- Boot (R126): the configuration is checked, then the image is loaded, then every other piece of state takes its reset value
(R121 to R125). A refused boot gives no state (R112). -/
def boot (config : Option (List Int)) (image : List (Int × Int)) : Host.Outcome State Fault Refusal :=
  match configure config with
  | none => .refused .configError
  | some h =>
    match loadImage image with
    | none => .refused .imageError
    | some m => .next { State.reset with mem := m, caches := h }

/-- What the host reads after the run ends: x[0..7], pc and memory, not the caches (R119). -/
structure Readout where
  regs : Vector Word 8
  pc   : Word
  mem  : Memory
  deriving DecidableEq, Repr

/-- readout: only after the run ends (R119). -/
def State.readout (s : State) : Option Readout :=
  if s.halted then
    some { regs := Vector.ofFn (fun i : Fin 8 => s.readReg (BitVec.ofNat 3 i.val)), pc := s.pc, mem := s.mem }
  else none

end Sys2Proof.Machine
end

