-- ==== Sys2Proof/Safety.lean ====
section
/-! DEFINITION. The terms the statements use: the invariant of the machine, a run, what two runs share, and the stores of a run. -/

namespace Sys2Proof.Machine

/-- An outcome that is a next state: the core neither faults nor refuses. -/
def Completes (o : Host.Outcome State Fault Refusal) : Prop := ∃ t, o = .next t

/-! The invariant. -/

/-- A slot of row r is placed right when its block belongs to that row, its tag is the block's, and the block is one of
memory's 8192 cells (R49, R33). -/
def Slot.placedRight (t : Triple) (r : Nat) (x : Slot) : Bool :=
  match x with
  | .empty => true
  | .occupied b tag => decide (b % t.rowCount = r ∧ tag = b / t.rowCount ∧ b * t.blockSize < 8192)

/-- Some slot of the cache holds block b. -/
def Cache.resident (c : Cache) (b : Nat) : Bool := c.rows.any (fun row => row.any (fun x => x.holds b))

/-- What every run keeps true of one cache level. -/
structure Cache.Inv (c : Cache) : Prop where
  /-- the triple is legal (R48) -/
  legal : c.cfg.Legal
  /-- rows_C rows (R25) -/
  rowCount : c.rows.length = c.cfg.rowCount
  /-- of assoc_C slots each (R25) -/
  rowLength : ∀ row ∈ c.rows, row.length = c.cfg.assoc
  /-- every line stands in its own row, with its own tag (R49) -/
  placed : ∀ r, ∀ x ∈ c.row r, x.placedRight c.cfg r = true
  /-- the recency map is in its canonical form -/
  sorted : c.recency.Pairwise (fun e f => e.1 < f.1)
  /-- its counters are pairwise distinct (R59) -/
  distinct : c.recency.Pairwise (fun e f => e.2 ≠ f.2)
  /-- its blocks are resident (R58) -/
  resident : ∀ e ∈ c.recency, c.resident e.1 = true
  /-- a direct-mapped level keeps no recency (R60) -/
  direct : c.cfg.assoc = 1 → c.recency = []

/-- The levels of a hierarchy, L1 first. -/
def Hierarchy.levels (h : Hierarchy) : List Cache :=
  match h with
  | .noCache => []
  | .oneLevel l1 => [l1]
  | .twoLevels l1 l2 => [l1, l2]

/-- The configuration of a hierarchy (R23). -/
def Hierarchy.config (h : Hierarchy) : List Triple := h.levels.map (fun c => c.cfg)

/-- What every run keeps true of the machine: register 0's slot holds 0 (R13), memory is in its canonical form, and every
cache level is in order. -/
structure State.Inv (s : State) : Prop where
  regZero : s.regs[0] = 0
  memory  : s.mem.wf = true
  caches  : ∀ c ∈ s.caches.levels, c.Inv

/-! Runs. -/

/-- The state n steps on, none where a step has no next state: a run that ends earlier (R30). -/
def runSteps (p : Params) (n : Nat) (s : State) : Option State :=
  match n with
  | 0 => some s
  | n + 1 =>
    match stepWith p s with
    | .next t => runSteps p n t
    | .fault _ => none
    | .refused _ => none

/-- Two states agree on what a program can see: registers, pc, memory and whether the run is over (R31). -/
def SameArchitecture (s t : State) : Prop :=
  (∀ r, s.readReg r = t.readReg r) ∧ s.pc = t.pc ∧ (∀ a, s.readMem a = t.readMem a) ∧ s.halted = t.halted

/-- The address and the value that an instruction stores: those of an sw, none for any other (R37). -/
def storeOfInstr (i : Instr) (s : State) : Option (Addr × Word) :=
  match i with
  | .sw rA rB imm => some (s.dataAddr rA imm, s.readReg rB)
  | .add _ _ _ | .sub _ _ _ | .or _ _ _ | .and _ _ _ | .slt _ _ _ | .jr _ | .addi _ _ _ | .j _ | .jal _ | .lw _ _ _
  | .jeq _ _ _ | .slti _ _ _ | .undefined => none

/-- The address and the value that the step at s stores, none for a step that executes no sw (R37). -/
def storeOf (p : Params) (s : State) : Option (Addr × Word) :=
  if s.halted then none
  else if isHalt p.haltHighPc s.fetch s.pc then none
  else storeOfInstr (decodeWith p.funcCodes s.fetch) s

/-- The value that the last of the first n steps from s to store to cell a stored there, none where none did (R43). -/
def lastStored (p : Params) (n : Nat) (s : State) (a : Addr) : Option Word :=
  match n with
  | 0 => none
  | n + 1 =>
    match stepWith p s with
    | .next t =>
      match lastStored p n t a with
      | some v => some v
      | none =>
        match storeOf p s with
        | some (b, v) => if b = a then some v else none
        | none => none
    | .fault _ => none
    | .refused _ => none

/-! A sequence of accesses to one level. -/

/-- A level after a sequence of accesses, the latest first in the list. -/
def Cache.after (c : Cache) (accesses : List (AccessKind × Addr)) : Cache :=
  match accesses with
  | [] => c
  | (kind, a) :: earlier => ((Cache.after c earlier).access kind a).2

end Sys2Proof.Machine
end

