-- ==== Sys2Proof/Certificates/Slice0/Obligations.lean ====
section
/-! DEFINITION. The statements for the provers, and the words they are put in. -/

namespace Sys2Proof.Claims

open Sys2Proof.Machine

/-! What an instruction changes and what it leaves. -/

/-- Register d of t reads v mod 65536, unless d is 0; every other register reads as in s. -/
def WritesOnly (s t : State) (d : RegIdx) (v : Nat) : Prop :=
  ∀ r, t.readReg r = if r = d ∧ d ≠ 0 then BitVec.ofNat 16 v else s.readReg r

/-- Every register reads as before. -/
def KeepsRegisters (s t : State) : Prop := ∀ r, t.readReg r = s.readReg r

/-- Every memory cell reads as before. -/
def KeepsMemory (s t : State) : Prop := ∀ a, t.readMem a = s.readMem a

/-- The caches and the stream of access records are as before. -/
def KeepsCaches (s t : State) : Prop := t.caches = s.caches ∧ t.trace = s.trace

/-- The halted bit is as before. -/
def KeepsHalted (s t : State) : Prop := t.halted = s.halted

/-- The pc is the next one, modulo 65536. -/
def Advances (s t : State) : Prop := t.pc.toNat = (s.pc.toNat + 1) % 65536

/-- The value of a 7-bit immediate after sign extension to 16 bits, as a number (R75). -/
def sext (imm : Imm7) : Nat := if imm.toNat < 64 then imm.toNat else imm.toNat + 65408

/-- An instruction that writes v to register d, goes on to the next pc, and changes nothing else. -/
def RegisterResult (i : Instr) (s : State) (d : RegIdx) (v : Nat) : Prop :=
  ∃ t, exec i s = .next t ∧ WritesOnly s t d v ∧ Advances s t ∧ KeepsMemory s t ∧ KeepsCaches s t ∧ KeepsHalted s t

/-- An instruction that sets the pc to v mod 65536 and changes nothing else. -/
def JumpResult (i : Instr) (s : State) (v : Nat) : Prop :=
  ∃ t, exec i s = .next t ∧ t.pc.toNat = v % 65536 ∧ KeepsRegisters s t ∧ KeepsMemory s t ∧ KeepsCaches s t ∧
    KeepsHalted s t

/-- Every word of format RRR with the function code decodes to the instruction of its three registers. -/
def DecodesRRR (code : FuncCodes → Fn) (i : RegIdx → RegIdx → RegIdx → Instr) : Prop :=
  ∀ fc : FuncCodes, fc.Distinct → ∀ w : Word, opField w = 0b000 → fnField w = code fc →
    decodeWith fc w = i (rAField w) (rBField w) (rCField w)

/-- Every word of format RRI with the opcode decodes to the instruction of its two registers and its immediate. -/
def DecodesRRI (op : Opcode) (i : RegIdx → RegIdx → Imm7 → Instr) : Prop :=
  ∀ (fc : FuncCodes) (w : Word), opField w = op → decodeWith fc w = i (rAField w) (rBField w) (imm7Field w)

/-- Every word of format I13 with the opcode decodes to the instruction of its immediate. -/
def DecodesI13 (op : Opcode) (i : Imm13 → Instr) : Prop :=
  ∀ (fc : FuncCodes) (w : Word), opField w = op → decodeWith fc w = i (imm13Field w)

/-! Caches. -/

/-- The key of a line in the choice of a victim: its block's counter, or the top value for an orphan (R55). -/
def keyOf (c : Cache) (b : Nat) : WithTop Nat :=
  match recFind c.recency b with
  | some n => (n : WithTop Nat)
  | none => ⊤

/-- Slot i of row r is the victim: it is occupied, no slot of the row has a larger key, and every earlier slot has a smaller
one (R55). -/
def IsVictim (c : Cache) (r i : Nat) : Prop :=
  ∃ b tag, (c.row r)[i]? = some (.occupied b tag) ∧
    ∀ j b' tag', (c.row r)[j]? = some (.occupied b' tag') →
      keyOf c b' ≤ keyOf c b ∧ (j < i → keyOf c b' < keyOf c b)

/-- Slot i of row r is the lowest empty one. -/
def IsLowestEmpty (c : Cache) (r i : Nat) : Prop :=
  (c.row r)[i]? = some .empty ∧ ∀ j, j < i → (c.row r)[j]? ≠ some .empty

/-- c' is c with slot i of row r holding the line, every other slot as it was. -/
def SlotReplaced (c c' : Cache) (r i : Nat) (x : Slot) : Prop :=
  c'.row r = (c.row r).set i x ∧ (∀ r', r' ≠ r → c'.row r' = c.row r') ∧ c'.cfg = c.cfg

/-- The records of an access at ea from s, L1's first, name their levels, the pc of s, ea, and each level's row (R65). -/
def RecordFields (s : State) (ea : Addr) (recs : List Record) : Prop :=
  recs.map (fun e => e.level) = ([.l1, .l2] : List LevelName).take recs.length ∧
  recs.map (fun e => e.row) = (s.caches.levels.map (fun c => rowOf c.cfg ea)).take recs.length ∧
  ∀ e ∈ recs, e.pc = s.pc ∧ e.ea = ea

/-- A level's triple is the three integers size, associativity and blocksize (R23). -/
def ConfiguredAs (c : Cache) (size assoc blockSize : Int) : Prop :=
  (c.cfg.size : Int) = size ∧ (c.cfg.assoc : Int) = assoc ∧ (c.cfg.blockSize : Int) = blockSize

/-- The value an image gives for an address, the later of two (log entry 10); none where it gives none. -/
def imageValue (image : List (Int × Int)) (a : Addr) : Option Int :=
  match image with
  | [] => none
  | cell :: rest =>
    match imageValue rest a with
    | some v => some v
    | none => if cell.1 = (a.toNat : Int) then some cell.2 else none

end Sys2Proof.Claims

open Sys2Proof Sys2Proof.Machine Sys2Proof.Claims

/-! ## Encoding (30_encoding.md) -/

/-- R80, from the encoder's side: decoding an instruction's word gives it back, for every instruction with every operand and
under any six distinct function codes. -/
def Obligations.DecodeOfEncodeIsTheInstruction : Prop :=
  ∀ fc : FuncCodes, fc.Distinct → ∀ i : Instr, decodeWith fc (encodeWith fc i) = i

/-- R80, R81: the decoder drops no bit but those it is told to ignore. A word is its instruction's encoding; a jr word up to
w[9:4]; and an undefined word is one whose opcode is 000 and whose function code is none of the six. -/
def Obligations.EncodeOfDecodeKeepsEveryUsedBit : Prop :=
  ∀ fc : FuncCodes, fc.Distinct → ∀ w : Word,
    match decodeWith fc w with
    | .undefined => opField w = 0b000 ∧ fnField w ∉ fc.codes
    | .jr rA => encodeWith fc (.jr rA) = w &&& 0xFC0F#16
    | i => encodeWith fc i = w

/-- R77, R78: what each of the eight opcode values decodes to. -/
def Obligations.OpcodeMapIsTotal : Prop :=
  ∀ (fc : FuncCodes) (w : Word),
    (opField w = 0b000 →
      (fnField w ∈ fc.codes → ∃ rA rB rC, decodeWith fc w = .add rA rB rC ∨ decodeWith fc w = .sub rA rB rC ∨
        decodeWith fc w = .or rA rB rC ∨ decodeWith fc w = .and rA rB rC ∨ decodeWith fc w = .slt rA rB rC ∨
        decodeWith fc w = .jr rA) ∧
      (fnField w ∉ fc.codes → decodeWith fc w = .undefined)) ∧
    (opField w = 0b001 → ∃ rA rB imm, decodeWith fc w = .addi rA rB imm) ∧
    (opField w = 0b010 → ∃ imm, decodeWith fc w = .j imm) ∧
    (opField w = 0b011 → ∃ imm, decodeWith fc w = .jal imm) ∧
    (opField w = 0b100 → ∃ rA rB imm, decodeWith fc w = .lw rA rB imm) ∧
    (opField w = 0b101 → ∃ rA rB imm, decodeWith fc w = .sw rA rB imm) ∧
    (opField w = 0b110 → ∃ rA rB imm, decodeWith fc w = .jeq rA rB imm) ∧
    (opField w = 0b111 → ∃ rA rB imm, decodeWith fc w = .slti rA rB imm)

/-- R81 (marked there as derived): the words of jr are exactly those with opcode 000 and jr's function code, whatever w[9:4]
hold. -/
def Obligations.JrIgnoresItsUnusedFields : Prop :=
  ∀ fc : FuncCodes, fc.Distinct → ∀ (w : Word) (rA : RegIdx),
    decodeWith fc w = .jr rA ↔ opField w = 0b000 ∧ fnField w = fc.jr ∧ rAField w = rA

/-- R82: a word decodes to `undefined` exactly when its opcode is 000 and its function code is none of the six; under the
default codes (D1, log entry 5) those are the ten values R82 lists. -/
def Obligations.UndefinedIsExactlyTheUnassignedCodes : Prop :=
  (∀ (fc : FuncCodes) (w : Word), decodeWith fc w = .undefined ↔ opField w = 0b000 ∧ fnField w ∉ fc.codes) ∧
  ∀ w : Word, decode w = .undefined ↔
    opField w = 0b000 ∧ fnField w ∈ ([5, 6, 7, 9, 10, 11, 12, 13, 14, 15] : List Fn)

/-- 95_test_vectors.md section 2.1: words of every format, one for each instruction, under the default function codes (D1, log
entry 5). -/
def Obligations.VectorWordsDecode : Prop :=
  decode 0x0530 = .add 1 2 3 ∧ decode 0x0531 = .sub 1 2 3 ∧ decode 0x0532 = .or 1 2 3 ∧ decode 0x0533 = .and 1 2 3 ∧
  decode 0x0534 = .slt 1 2 3 ∧ decode 0x1FF8 = .jr 7 ∧ decode 0x1C09 = .undefined ∧ decode 0x253F = .addi 1 2 63 ∧
  decode 0x5FFF = .j 8191 ∧ decode 0x6064 = .jal 100 ∧ decode 0x857F = .lw 1 2 127 ∧ decode 0xA185 = .sw 0 3 5 ∧
  decode 0xC57F = .jeq 1 2 127 ∧ decode 0xE505 = .slti 1 2 5

/-- R75: the extension is v below 64 and v + 65408 from 64 on, which is the two's-complement extension of bit 6. -/
def Obligations.SignExtensionIsTwosComplement : Prop :=
  ∀ v : Imm7, (sext16 v).toNat = sext v ∧ sext16 v = v.signExtend 16

/-! ## ALU instructions (40_alu.md) -/

/-- R89. -/
def Obligations.AddWritesTheSumModulo65536 : Prop :=
  DecodesRRR FuncCodes.add .add ∧
  ∀ (rA rB rC : RegIdx) (s : State),
    RegisterResult (.add rA rB rC) s rC ((s.readReg rA).toNat + (s.readReg rB).toNat)

/-- R90: the difference, with 65536 added so that it is never negative. -/
def Obligations.SubWritesTheDifferenceModulo65536 : Prop :=
  DecodesRRR FuncCodes.sub .sub ∧
  ∀ (rA rB rC : RegIdx) (s : State),
    RegisterResult (.sub rA rB rC) s rC ((s.readReg rA).toNat + 65536 - (s.readReg rB).toNat)

/-- R91. -/
def Obligations.OrWritesTheBitwiseOr : Prop :=
  DecodesRRR FuncCodes.or .or ∧
  ∀ (rA rB rC : RegIdx) (s : State),
    RegisterResult (.or rA rB rC) s rC ((s.readReg rA).toNat ||| (s.readReg rB).toNat)

/-- R92. -/
def Obligations.AndWritesTheBitwiseAnd : Prop :=
  DecodesRRR FuncCodes.and .and ∧
  ∀ (rA rB rC : RegIdx) (s : State),
    RegisterResult (.and rA rB rC) s rC ((s.readReg rA).toNat &&& (s.readReg rB).toNat)

/-- R93. -/
def Obligations.SltComparesUnsigned : Prop :=
  DecodesRRR FuncCodes.slt .slt ∧
  ∀ (rA rB rC : RegIdx) (s : State),
    RegisterResult (.slt rA rB rC) s rC (if (s.readReg rA).toNat < (s.readReg rB).toNat then 1 else 0)

/-- R94. -/
def Obligations.AddiAddsTheSignExtendedImmediate : Prop :=
  DecodesRRI 0b001 .addi ∧
  ∀ (rA rB : RegIdx) (imm : Imm7) (s : State),
    RegisterResult (.addi rA rB imm) s rB ((s.readReg rA).toNat + sext imm)

/-- The effect of R95. That slti compares unsigned is the spec's decision D17 (log entry 18), that its write to register 0 is
suppressed on both outcomes its decision D11 (log entry 19). -/
def Obligations.SltiComparesUnsignedWithTheExtension : Prop :=
  DecodesRRI 0b111 .slti ∧
  ∀ (rA rB : RegIdx) (imm : Imm7) (s : State),
    RegisterResult (.slti rA rB imm) s rB (if (s.readReg rA).toNat < sext imm then 1 else 0)

/-! ## Loads and stores (41_load_store.md) -/

/-- R34: the 16-bit sum of the base and the extended offset, then its low 13 bits; and one address serves the memory access of
lw and sw and their cache access alike. -/
def Obligations.EffectiveAddressIsTheLow13BitsOfTheSum : Prop :=
  (∀ (base : Word) (imm : Imm7), (effectiveAddr base imm).toNat = (base.toNat + sext imm) % 65536 % 8192) ∧
  effectiveAddr 65535 127 = 8190 ∧
  ∀ (rA rB : RegIdx) (imm : Imm7) (s : State), s.mem.wf = true →
    (∃ t, exec (.lw rA rB imm) s = .next t ∧
      (rB ≠ 0 → t.readReg rB = s.readMem (effectiveAddr (s.readReg rA) imm)) ∧
      t.caches = (s.caches.access .load (effectiveAddr (s.readReg rA) imm) s.pc).1) ∧
    ∃ t, exec (.sw rA rB imm) s = .next t ∧
      t.readMem (effectiveAddr (s.readReg rA) imm) = s.readReg rB ∧
      t.caches = (s.caches.access .store (effectiveAddr (s.readReg rA) imm) s.pc).1

/-- R96: the destination takes the old cell at the EA, whatever the cache answers; the access is presented at this pc and its
records appended, the destination register 0 or not. -/
def Obligations.LwLoadsTheCellAtTheEffectiveAddress : Prop :=
  DecodesRRI 0b100 .lw ∧
  ∀ (rA rB : RegIdx) (imm : Imm7) (s : State),
    (s.dataAddr rA imm).toNat = ((s.readReg rA).toNat + sext imm) % 65536 % 8192 ∧
    ∃ t, exec (.lw rA rB imm) s = .next t ∧
      WritesOnly s t rB (s.readMem (s.dataAddr rA imm)).toNat ∧ Advances s t ∧ KeepsMemory s t ∧ KeepsHalted s t ∧
      t.caches = (s.caches.access .load (s.dataAddr rA imm) s.pc).1 ∧
      t.trace = s.trace ++ (s.caches.access .load (s.dataAddr rA imm) s.pc).2

/-- R97, for a memory in the model's canonical form: the cell at the EA takes the data register's old value, every other cell
is as before. -/
def Obligations.SwStoresAtTheEffectiveAddress : Prop :=
  DecodesRRI 0b101 .sw ∧
  ∀ (rA rB : RegIdx) (imm : Imm7) (s : State), s.mem.wf = true →
    (s.dataAddr rA imm).toNat = ((s.readReg rA).toNat + sext imm) % 65536 % 8192 ∧
    ∃ t, exec (.sw rA rB imm) s = .next t ∧
      t.readMem (s.dataAddr rA imm) = s.readReg rB ∧
      (∀ a, a ≠ s.dataAddr rA imm → t.readMem a = s.readMem a) ∧
      KeepsRegisters s t ∧ Advances s t ∧ KeepsHalted s t ∧
      t.caches = (s.caches.access .store (s.dataAddr rA imm) s.pc).1 ∧
      t.trace = s.trace ++ (s.caches.access .store (s.dataAddr rA imm) s.pc).2

/-! ## Control transfer and halt (42_control.md) -/

/-- R100. -/
def Obligations.JrJumpsToTheFullRegister : Prop :=
  (∀ fc : FuncCodes, fc.Distinct → ∀ w : Word, opField w = 0b000 → fnField w = fc.jr →
    decodeWith fc w = .jr (rAField w)) ∧
  ∀ (rA : RegIdx) (s : State), JumpResult (.jr rA) s (s.readReg rA).toNat

/-- R101. -/
def Obligations.JeqBranchesRelativeToTheNextPc : Prop :=
  DecodesRRI 0b110 .jeq ∧
  ∀ (rA rB : RegIdx) (imm : Imm7) (s : State),
    JumpResult (.jeq rA rB imm) s
      (if s.readReg rA = s.readReg rB then s.pc.toNat + 1 + sext imm else s.pc.toNat + 1)

/-- R102: what j does when it is executed. -/
def Obligations.JumpsToTheImmediate : Prop :=
  DecodesI13 0b010 .j ∧ ∀ (imm : Imm13) (s : State), JumpResult (.j imm) s imm.toNat

/-- R103: r7 takes pc + 1 modulo 65536 and the pc the immediate. -/
def Obligations.JalLinksInRegister7 : Prop :=
  DecodesI13 0b011 .jal ∧
  ∀ (imm : Imm13) (s : State), ∃ t, exec (.jal imm) s = .next t ∧ WritesOnly s t 7 (s.pc.toNat + 1) ∧
    t.pc.toNat = imm.toNat ∧ KeepsMemory s t ∧ KeepsCaches s t ∧ KeepsHalted s t

/-- R107: the pc advances and nothing else changes. -/
def Obligations.UndefinedOnlyAdvancesThePc : Prop :=
  (∀ (fc : FuncCodes) (w : Word), opField w = 0b000 → fnField w ∉ fc.codes → decodeWith fc w = .undefined) ∧
  ∀ s : State, JumpResult .undefined s (s.pc.toNat + 1)

/-- R99: every instruction other than jr, a taken jeq, j and jal runs and goes on to pc + 1. -/
def Obligations.EveryOtherInstructionGoesOnToTheNextPc : Prop :=
  ∀ (i : Instr) (s : State), (∀ rA, i ≠ .jr rA) → (∀ imm, i ≠ .j imm) → (∀ imm, i ≠ .jal imm) →
    (∀ rA rB imm, i = .jeq rA rB imm → s.readReg rA ≠ s.readReg rB) →
    ∃ t, exec i s = .next t ∧ Advances s t

/-- R104, with the spec's decision D4 for a pc of 8192 or more (log entry 6). Below 8192 both readings agree and a word is the
sentinel exactly when it is a j to its own address; from 8192 on no word matches, or the low 13 bits of the pc do. -/
def Obligations.HaltSentinelIsTheJumpToItself : Prop :=
  ∀ (fc : FuncCodes) (w pc : Word),
    (pc.toNat < 8192 → ∀ policy, (isHalt policy w pc = true ↔ w.toNat = 0x4000 + pc.toNat) ∧
      (isHalt policy w pc = true ↔ ∃ imm, decodeWith fc w = .j imm ∧ imm.toNat = pc.toNat)) ∧
    (8192 ≤ pc.toNat → isHalt .noMatch w pc = false ∧
      (isHalt .low13 w pc = true ↔ w.toNat = 0x4000 + pc.toNat % 8192))

/-- R105: a step that meets the sentinel executes nothing and sets the halted bit, and the run ends: no step follows. -/
def Obligations.HaltChangesOnlyTheHaltedBit : Prop :=
  ∀ (p : Params) (s : State), s.halted = false → isHalt p.haltHighPc s.fetch s.pc = true →
    ∃ t, stepWith p s = .next t ∧ t.halted = true ∧ t.pc = s.pc ∧ KeepsRegisters s t ∧ KeepsMemory s t ∧
      KeepsCaches s t ∧ ¬ Completes (stepWith p t)

/-- R27, R30: of the steps that have a next state, exactly those that meet the sentinel leave the core halted. -/
def Obligations.OnlyTheSentinelHalts : Prop :=
  ∀ (p : Params) (s t : State), stepWith p s = .next t →
    (t.halted = true ↔ isHalt p.haltHighPc s.fetch s.pc = true)

/-- R27, R28: a halted core has no step. That the model says so by a fault is its own form (log entry 7). -/
def Obligations.HaltedCoreHasNoStep : Prop :=
  ∀ (p : Params) (s : State), s.halted = true → ¬ Completes (stepWith p s) ∧ stepWith p s = .fault .halted

/-! ## The step, registers and memory (10_state.md, 20_memory.md, 60_exceptions.md) -/

/-- R28: where the core has not halted and the fetched word is not the sentinel, a step is exec of the decoded instruction at
that state, with nothing added. -/
def Obligations.StepRunsTheDecodedInstruction : Prop :=
  (∀ s : State, s.halted = false → isHalt .noMatch s.fetch s.pc = false →
    Sys2Proof.Machine.step s = exec (decode s.fetch) s) ∧
  ∀ (p : Params) (s : State), s.halted = false → isHalt p.haltHighPc s.fetch s.pc = false →
    stepWith p s = exec (decodeWith p.funcCodes s.fetch) s

/-- The host's placing of a word: the next step runs the instruction decodeTableWord reads from it. How a program comes to run
is the model's reading of R119 (log entry 11). -/
def Obligations.PlacedWordIsTheNextInstruction : Prop :=
  ∀ (s : State) (nbits w : Nat) (i : Instr), s.mem.wf = true → s.halted = false → decodeTableWord nbits w = some i →
    isHalt .noMatch (tableWord nbits w) s.pc = false →
    Sys2Proof.Machine.step (s.withFetchWord nbits w) = exec i (s.withFetchWord nbits w)

/-- R18: fetch reads the cell at the low 13 bits of the pc, and so the same cell for every pc with those bits. -/
def Obligations.FetchReadsTheLow13BitsOfThePc : Prop :=
  ∀ s : State, s.fetch = s.readMem (BitVec.ofNat 13 (s.pc.toNat % 8192)) ∧
    ∀ v : Word, v.toNat % 8192 = s.pc.toNat % 8192 → (s.setPc v).fetch = s.fetch ∧ (s.setPc v).pc = v

/-- R13: register 0 reads as 0 in every state, and what is written to it is seen nowhere. -/
def Obligations.RegisterZeroReadsAsZero : Prop :=
  ∀ s : State, s.readReg 0 = 0 ∧ ∀ (v : Word) (r : RegIdx), (s.writeReg 0 v).readReg r = s.readReg r

/-- R16: an instruction changes no register but the one its row names, and what it does to that register, the pc and memory
depends on no register but those its row names. -/
def Obligations.RegisterUsageIsTheTables : Prop :=
  (∀ (i : Instr) (s t : State), exec i s = .next t → ∀ r, i.writes ≠ some r → t.readReg r = s.readReg r) ∧
  ∀ (i : Instr) (s s' t t' : State), s.mem.wf = true → s'.mem.wf = true →
    (∀ r ∈ i.reads, s.readReg r = s'.readReg r) → s.pc = s'.pc → (∀ a, s.readMem a = s'.readMem a) →
    exec i s = .next t → exec i s' = .next t' →
    t.pc = t'.pc ∧ (∀ a, t.readMem a = t'.readMem a) ∧ ∀ r, i.writes = some r → t.readReg r = t'.readReg r

/-- R108: no instruction and no word raises an exception, and no step faults (a halted core takes none). -/
def Obligations.NothingFaults : Prop :=
  (∀ (i : Instr) (s : State), Completes (exec i s)) ∧
  ∀ (p : Params) (s : State), s.halted = false → Completes (stepWith p s)

/-- R37: a cell that a step changes is the EA of an sw that the step executes, and holds that sw's data. -/
def Obligations.OnlySwChangesMemory : Prop :=
  ∀ (p : Params) (s t : State), s.mem.wf = true → stepWith p s = .next t → ∀ a, t.readMem a ≠ s.readMem a →
    isHalt p.haltHighPc s.fetch s.pc = false ∧
    ∃ rA rB imm, decodeWith p.funcCodes s.fetch = .sw rA rB imm ∧ a = s.dataAddr rA imm ∧ t.readMem a = s.readReg rB

/-- R43: over every run, an lw loads what the last store of the run to its EA stored there, or what the cell held at the
start if none did. -/
def Obligations.LoadReturnsTheLastStore : Prop :=
  ∀ (p : Params) (n : Nat) (s t : State), s.mem.wf = true → runSteps p n s = some t →
    (∀ a, t.readMem a = (lastStored p n s a).getD (s.readMem a)) ∧
    ∀ (rA rB : RegIdx) (imm : Imm7), rB ≠ 0 → ∃ u, exec (.lw rA rB imm) t = .next u ∧
      u.readReg rB = (lastStored p n s (t.dataAddr rA imm)).getD (s.readMem (t.dataAddr rA imm))

/-- R45 (marked there as derived): the fetch right after an sw sees the stored value where it reads the stored cell, and the
old cell elsewhere. -/
def Obligations.NextFetchSeesTheStore : Prop :=
  ∀ (p : Params) (s : State) (rA rB : RegIdx) (imm : Imm7), s.mem.wf = true → s.halted = false →
    isHalt p.haltHighPc s.fetch s.pc = false → decodeWith p.funcCodes s.fetch = .sw rA rB imm →
    ∃ t, stepWith p s = .next t ∧
      t.fetch = if t.fetchAddr = s.dataAddr rA imm then s.readReg rB else s.readMem t.fetchAddr

/-- R31 (marked there as derived): two runs of n steps from states that agree on registers, pc, memory and the halted bit, with
any caches, agree on them again. -/
def Obligations.CachesNeverChangeTheResult : Prop :=
  ∀ (p : Params) (n : Nat) (s s' t : State), s.mem.wf = true → s'.mem.wf = true → SameArchitecture s s' →
    runSteps p n s = some t → ∃ t', runSteps p n s' = some t' ∧ SameArchitecture t t'

/-! ## Invariants -/

/-- The invariant holds after reset. -/
def Obligations.ResetStateIsInOrder : Prop := State.reset.Inv

/-- Every step keeps the invariant, under any parameters: register 0's slot, the memory's canonical form, and for every cache
level its shape, the place and tag of its lines, and its recency map. -/
def Obligations.EveryStepKeepsTheInvariant : Prop :=
  ∀ s t : State, s.Inv →
    (Sys2Proof.Machine.step s = .next t → t.Inv) ∧ ∀ p : Params, stepWith p s = .next t → t.Inv

/-- Every accepted configuration and image give a state in order. -/
def Obligations.EveryBootIsInOrder : Prop :=
  ∀ (config : Option (List Int)) (image : List (Int × Int)) (s : State), boot config image = .next s → s.Inv

/-- R23: no step changes the cache configuration. -/
def Obligations.NoStepChangesTheConfiguration : Prop :=
  ∀ (p : Params) (s t : State), stepWith p s = .next t → t.caches.config = s.caches.config

/-! ## The cache controller (20_memory.md) -/

/-- R49, R50: for a legal triple a block is its cells, a row is one of the cache's rows, and a block is told by its row and
its tag. -/
def Obligations.AddressDecompositionIsExact : Prop :=
  ∀ t : Triple, t.Legal → ∀ a a' : Addr,
    rowOf t a < t.rowCount ∧
    blockOf t a * t.blockSize ≤ a.toNat ∧ a.toNat < (blockOf t a + 1) * t.blockSize ∧
    blockOf t a = tagOf t a * t.rowCount + rowOf t a ∧
    (rowOf t a = rowOf t a' → (blockOf t a = blockOf t a' ↔ tagOf t a = tagOf t a'))

/-- R51, R53: a direct-mapped level. A load is a HIT exactly when the row's one slot holds its block, and then changes
nothing; any other load is a MISS and any store an SW, and both put the line into that slot and nothing else. -/
def Obligations.DirectMappedAccess : Prop :=
  ∀ (c : Cache) (a : Addr), c.cfg.assoc = 1 → (c.row (rowOf c.cfg a)).length = 1 →
    ((∃ tag, c.row (rowOf c.cfg a) = [.occupied (blockOf c.cfg a) tag]) → c.access .load a = (.hit, c)) ∧
    ((¬ ∃ tag, c.row (rowOf c.cfg a) = [.occupied (blockOf c.cfg a) tag]) →
      (c.access .load a).1 = .miss ∧ (c.access .load a).2.recency = c.recency ∧
      SlotReplaced c (c.access .load a).2 (rowOf c.cfg a) 0 (.occupied (blockOf c.cfg a) (tagOf c.cfg a))) ∧
    (c.access .store a).1 = .sw ∧ (c.access .store a).2.recency = c.recency ∧
    SlotReplaced c (c.access .store a).2 (rowOf c.cfg a) 0 (.occupied (blockOf c.cfg a) (tagOf c.cfg a))

/-- R52: a set-associative load is a HIT exactly when some slot of its row holds its block, and then only touches the block;
otherwise it is a MISS and places the block. -/
def Obligations.SetAssociativeLoad : Prop :=
  ∀ (c : Cache) (a : Addr), c.cfg.assoc ≠ 1 →
    ((∃ tag, Slot.occupied (blockOf c.cfg a) tag ∈ c.row (rowOf c.cfg a)) →
      c.access .load a = (.hit, c.touch (blockOf c.cfg a))) ∧
    ((¬ ∃ tag, Slot.occupied (blockOf c.cfg a) tag ∈ c.row (rowOf c.cfg a)) →
      c.access .load a = (.miss, c.place (rowOf c.cfg a) (blockOf c.cfg a) (tagOf c.cfg a)))

/-- R54, R55, with the spec's decisions D6, D7, D8 (log entries 12, 13, 14): a set-associative store is an SW that places its
line, and Place puts a line into the lowest empty slot of the row; in a full row into the victim's, the lowest slot of those
with the largest key. No other slot changes. -/
def Obligations.PlaceFillsTheLowestEmptySlotOrTheVictims : Prop :=
  (∀ (c : Cache) (a : Addr), c.cfg.assoc ≠ 1 →
    c.access .store a = (.sw, c.place (rowOf c.cfg a) (blockOf c.cfg a) (tagOf c.cfg a))) ∧
  ∀ (c : Cache) (r b tag : Nat), c.row r ≠ [] →
    (Slot.empty ∈ c.row r → ∃ i, IsLowestEmpty c r i ∧ SlotReplaced c (c.place r b tag) r i (.occupied b tag)) ∧
    (Slot.empty ∉ c.row r → ∃ i, IsVictim c r i ∧ SlotReplaced c (c.place r b tag) r i (.occupied b tag))

/-- R57, R58: after every set-associative access the accessed block's counter is 0. On a HIT, and where the row had an empty
slot, every other block's counter is one more. In a full row without a HIT, the block whose slot the new line took has no entry
afterwards, and every other block's counter is one more. -/
def Obligations.EveryAccessTouchesTheRecencyMap : Prop :=
  ∀ (c : Cache) (kind : AccessKind) (a : Addr), c.cfg.assoc ≠ 1 →
    recFind (c.access kind a).2.recency (blockOf c.cfg a) = some 0 ∧
    ((c.access kind a).1 = .hit ∨ Slot.empty ∈ c.row (rowOf c.cfg a) →
      ∀ k, k ≠ blockOf c.cfg a →
        recFind (c.access kind a).2.recency k = (recFind c.recency k).map (· + 1)) ∧
    ((c.access kind a).1 ≠ .hit ∧ Slot.empty ∉ c.row (rowOf c.cfg a) →
      ∃ i, SlotReplaced c (c.access kind a).2 (rowOf c.cfg a) i (.occupied (blockOf c.cfg a) (tagOf c.cfg a)) ∧
        ∀ k, k ≠ blockOf c.cfg a →
          ((∃ tag, (c.row (rowOf c.cfg a))[i]? = some (.occupied k tag)) →
            recFind (c.access kind a).2.recency k = none) ∧
          ((¬ ∃ tag, (c.row (rowOf c.cfg a))[i]? = some (.occupied k tag)) →
            recFind (c.access kind a).2.recency k = (recFind c.recency k).map (· + 1)))

/-- R58, R59 over every sequence of accesses to a set-associative level: a block's counter is the number of accesses made since
the last one to that block, in the whole level and not in its row alone. So a larger counter is a less recent use. That a
counter has no upper bound is the spec's decision D18 (log entry 17). -/
def Obligations.CounterIsTheNumberOfAccessesSince : Prop :=
  ∀ (t : Triple), t.assoc ≠ 1 → ∀ (accesses : List (AccessKind × Addr)) (k n : Nat),
    recFind ((Cache.fresh t).after accesses).recency k = some n →
    accesses.findIdx? (fun e => decide (blockOf t e.2 = k)) = some n

/-- R60 (marked there as derived): on a row of one slot the set-associative algorithm gives the same classification and the
same slots as the direct one. -/
def Obligations.DirectAndAssociativeAgreeOnOneSlot : Prop :=
  ∀ (c : Cache) (kind : AccessKind) (a : Addr), (c.row (rowOf c.cfg a)).length = 1 →
    (c.accessDirect kind a).1 = (c.accessAssoc kind a).1 ∧
    ∀ r, (c.accessDirect kind a).2.row r = (c.accessAssoc kind a).2.row r

/-- R51 to R54: whatever an access to a level was, a load of the same block right after it is a HIT. -/
def Obligations.LoadAfterAnAccessHits : Prop :=
  ∀ (c : Cache), c.Inv → ∀ (kind : AccessKind) (a a' : Addr), blockOf c.cfg a' = blockOf c.cfg a →
    ((c.access kind a).2.access .load a').1 = .hit

/-- R69, R124: an access never empties a slot. -/
def Obligations.OccupiedSlotsStayOccupied : Prop :=
  ∀ (c : Cache) (kind : AccessKind) (a : Addr) (r i b tag : Nat), (c.row r)[i]? = some (.occupied b tag) →
    ∃ b' tag', ((c.access kind a).2.row r)[i]? = some (.occupied b' tag')

/-- R63, with R62's fewer levels: with two levels, a load that hits L1 leaves L2 alone and gives one record; one that misses L1
goes on to L2 and gives two, L1's first. With one level a load gives L1's own answer in one record, with none no record. -/
def Obligations.LoadConsultsL2OnlyOnAnL1Miss : Prop :=
  ∀ (l1 l2 : Cache) (a : Addr) (pc : Word),
    ((l1.access .load a).1 = .hit →
      (Hierarchy.twoLevels l1 l2).access .load a pc =
        (.twoLevels (l1.access .load a).2 l2, [⟨.l1, .hit, pc, a, rowOf l1.cfg a⟩])) ∧
    ((l1.access .load a).1 = .miss →
      (Hierarchy.twoLevels l1 l2).access .load a pc =
        (.twoLevels (l1.access .load a).2 (l2.access .load a).2,
          [⟨.l1, .miss, pc, a, rowOf l1.cfg a⟩, ⟨.l2, (l2.access .load a).1, pc, a, rowOf l2.cfg a⟩])) ∧
    ((l1.access .load a).1 = .hit ∨ (l1.access .load a).1 = .miss) ∧
    (Hierarchy.oneLevel l1).access .load a pc =
      (.oneLevel (l1.access .load a).2, [⟨.l1, (l1.access .load a).1, pc, a, rowOf l1.cfg a⟩]) ∧
    Hierarchy.noCache.access .load a pc = (.noCache, [])

/-- R64, with R62's zero levels: a store updates every configured level and gives one SW record for each. -/
def Obligations.StoreUpdatesEveryLevel : Prop :=
  ∀ (a : Addr) (pc : Word),
    Hierarchy.noCache.access .store a pc = (.noCache, []) ∧
    (∀ l1 : Cache, (Hierarchy.oneLevel l1).access .store a pc =
      (.oneLevel (l1.access .store a).2, [⟨.l1, .sw, pc, a, rowOf l1.cfg a⟩])) ∧
    ∀ l1 l2 : Cache, (Hierarchy.twoLevels l1 l2).access .store a pc =
      (.twoLevels (l1.access .store a).2 (l2.access .store a).2,
        [⟨.l1, .sw, pc, a, rowOf l1.cfg a⟩, ⟨.l2, .sw, pc, a, rowOf l2.cfg a⟩])

/-- R66 (marked there as derived), with R65's fields: the records of an instruction that is not lw or sw, of a store and of a
load, by the number of levels. The pc in a record is the full 16-bit one by the spec's decision D9 (log entry 15). -/
def Obligations.RecordsOfEachInstruction : Prop :=
  ∀ (i : Instr) (s t : State), exec i s = .next t → ∃ recs, t.trace = s.trace ++ recs ∧
    ((∀ rA rB imm, i ≠ .lw rA rB imm) → (∀ rA rB imm, i ≠ .sw rA rB imm) → recs = [] ∧ t.caches = s.caches) ∧
    (∀ rA rB imm, i = .sw rA rB imm →
      recs.map (fun e => e.cls) = s.caches.levels.map (fun _ => .sw) ∧
      RecordFields s (s.dataAddr rA imm) recs) ∧
    (∀ rA rB imm, i = .lw rA rB imm →
      recs.map (fun e => e.cls) ∈
        ((match s.caches with
        | .noCache => [[]]
        | .oneLevel _ => [[.hit], [.miss]]
        | .twoLevels _ _ => [[.hit], [.miss, .hit], [.miss, .miss]] : List (List AccessClass))) ∧
      RecordFields s (s.dataAddr rA imm) recs)

/-! ## The host's transactions (60_exceptions.md R119, 70_reset_and_hazards.md) -/

/-- R119: what a `step()` answers is the step's next state, its halted bit and exactly the records the step added, at most
two. -/
def Obligations.StepReportHoldsTheRecordsOfTheStep : Prop :=
  ∀ (p : Params) (s t : State), stepWith p s = .next t →
    ∃ rep, stepTransaction p s = .next rep ∧ rep.after = t ∧ rep.halted = t.halted ∧
      t.trace = s.trace ++ rep.records ∧ rep.records.length ≤ 2

/-- R112, with the spec's decisions D5 and D15 (log entries 8, 9): which configurations are accepted. Any count but 3 and 6 is
refused; three integers are accepted exactly when they are at least 1 and the size is a multiple of associativity times
blocksize; six when both triples are; and no configuration gives no level. -/
def Obligations.ConfigurationIsRefusedExactlyWhenIllegal : Prop :=
  (∀ image, boot none image ≠ .refused .configError ∧ ∀ s, boot none image = .next s → s.caches.levels = []) ∧
  (∀ (ints : List Int) (image : List (Int × Int)), ints.length ≠ 3 → ints.length ≠ 6 →
    boot (some ints) image = .refused .configError) ∧
  (∀ (x y z : Int) (image : List (Int × Int)), boot (some [x, y, z]) image = .refused .configError ↔
    ¬ (1 ≤ x ∧ 1 ≤ y ∧ 1 ≤ z ∧ x % (y * z) = 0)) ∧
  ∀ (x y z x' y' z' : Int) (image : List (Int × Int)),
    boot (some [x, y, z, x', y', z']) image = .refused .configError ↔
      ¬ ((1 ≤ x ∧ 1 ≤ y ∧ 1 ≤ z ∧ x % (y * z) = 0) ∧ (1 ≤ x' ∧ 1 ≤ y' ∧ 1 ≤ z' ∧ x' % (y' * z') = 0))

/-- R119, R123, with the spec's decisions D3 and D16 (log entries 2, 10): under every configuration that boot accepts, an image
with a cell out of range is refused; any other is loaded, and every cell holds the value the image gives for it, or 0. That of
two values for one address the later stands is the model's choice (log entry 10). -/
def Obligations.ImageIsLoadedOrRefused : Prop :=
  ∀ (config : Option (List Int)) (image : List (Int × Int)), boot config image ≠ .refused .configError →
    ((∃ cell ∈ image, ¬ ImageCellLegal cell) → boot config image = .refused .imageError) ∧
    ((∀ cell ∈ image, ImageCellLegal cell) →
      ∃ s, boot config image = .next s ∧ ∀ a : Addr, ((s.readMem a).toNat : Int) = (imageValue image a).getD 0)

/-- R23, R121, R122, R124, R125, with the spec's decisions D2, D15 and D19 (log entries 3, 4, 8, 23): what every boot leaves in
the registers, the pc, the halted bit and the caches. Three integers give one level with that triple, six give L1 the first
three and L2 the others, and no configuration gives no level; every slot and recency map is empty. -/
def Obligations.BootLeavesTheResetValues : Prop :=
  ∀ (config : Option (List Int)) (image : List (Int × Int)) (s : State), boot config image = .next s →
    (∀ r, s.readReg r = 0) ∧ s.pc = 0 ∧ s.halted = false ∧ s.trace = [] ∧
    (config = none → s.caches = .noCache) ∧
    (∀ x y z : Int, config = some [x, y, z] → ∃ l1, s.caches = .oneLevel l1 ∧ ConfiguredAs l1 x y z) ∧
    (∀ x y z x' y' z' : Int, config = some [x, y, z, x', y', z'] →
      ∃ l1 l2, s.caches = .twoLevels l1 l2 ∧ ConfiguredAs l1 x y z ∧ ConfiguredAs l2 x' y' z') ∧
    ∀ c ∈ s.caches.levels, c.recency = [] ∧ c.rows.length = c.cfg.rowCount ∧
      ∀ row ∈ c.rows, row.length = c.cfg.assoc ∧ ∀ x ∈ row, x = .empty

/-- R118, R119: after the halting step the readout gives every register, the pc and every cell as they were before it; before
the halt there is none. -/
def Obligations.ReadoutGivesTheFinalState : Prop :=
  ∀ (p : Params) (s : State), s.halted = false → s.readout = none ∧
    (isHalt p.haltHighPc s.fetch s.pc = true → ∃ t out, stepWith p s = .next t ∧ t.readout = some out ∧
      (∀ r : Fin 8, out.regs[r] = s.readReg (BitVec.ofNat 3 r.val)) ∧ out.pc = s.pc ∧
      ∀ a : Addr, out.mem.read a = s.readMem a)
end

