-- ==== Sys2Proof/Laws/Recency.lean ====
section
/-! SUPPORT. The recency map: what a look-up sees after erase, insert and touch, and that these keep the map's canonical form and its distinct counters. -/

namespace Sys2Proof.Machine

/-- A block with an entry is found. -/
theorem recFind_isSome_iff {m : RecencyMap} {b : Nat} : (recFind m b).isSome ↔ ∃ e ∈ m, e.1 = b := by
  induction m with
  | nil => simp [recFind]
  | cons e rest ih =>
    obtain ⟨k, n⟩ := e
    by_cases h : k = b <;> simp [recFind, h, ih]

/-- What is found is an entry. -/
theorem mem_of_recFind {m : RecencyMap} {b n : Nat} (h : recFind m b = some n) : (b, n) ∈ m := by
  induction m with
  | nil => simp [recFind] at h
  | cons e rest ih =>
    obtain ⟨k, x⟩ := e
    by_cases hk : k = b
    · subst hk
      simp [recFind] at h
      simp [h]
    · simp only [recFind, if_neg hk] at h
      exact List.mem_cons_of_mem _ (ih h)

/-- An erased block has no entry, and the others keep theirs (R57). -/
theorem recFind_recErase (m : RecencyMap) (b k : Nat) :
    recFind (recErase m b) k = if k = b then none else recFind m k := by
  induction m with
  | nil => simp [recErase, recFind]
  | cons e rest ih =>
    obtain ⟨j, n⟩ := e
    unfold recErase at ih ⊢
    by_cases hj : j = b
    · subst hj
      simp only [List.filter_cons, ne_eq, not_true_eq_false, decide_false, Bool.false_eq_true, if_false, ih, recFind]
      by_cases hk : k = j
      · simp [hk]
      · simp [hk, Ne.symm hk]
    · simp only [List.filter_cons, ne_eq, hj, not_false_eq_true, decide_true, if_true, recFind, ih]
      by_cases hjk : j = k
      · subst hjk; simp [hj]
      · simp [hjk]

/-- Ageing every entry ages what is found. -/
theorem recFind_map_succ (m : RecencyMap) (k : Nat) :
    recFind (m.map (fun e => (e.1, e.2 + 1))) k = (recFind m k).map (· + 1) := by
  induction m with
  | nil => rfl
  | cons e rest ih =>
    obtain ⟨j, n⟩ := e
    by_cases h : j = k <;> simp [recFind, h, ih]

/-- An inserted block has its entry, and the others keep theirs. -/
theorem recFind_recInsert {m : RecencyMap} {b : Nat} (n k : Nat) (h : recFind m b = none) :
    recFind (recInsert m b n) k = if k = b then some n else recFind m k := by
  induction m with
  | nil => by_cases hk : b = k <;> simp [recInsert, recFind, hk, eq_comm]
  | cons e rest ih =>
    obtain ⟨j, x⟩ := e
    have hj : j ≠ b := by rintro rfl; simp [recFind] at h
    have hrest : recFind rest b = none := by simpa [recFind, hj] using h
    by_cases hbj : b < j
    · simp only [recInsert, if_pos hbj, recFind]
      by_cases hk : b = k <;> simp [hk, eq_comm]
    · simp only [recInsert, if_neg hbj, recFind, ih hrest]
      by_cases hjk : j = k
      · subst hjk; simp [hj]
      · simp [hjk]

/-- After a touch: the touched block's counter is 0 and every other one's is one more (R58). -/
theorem recFind_recTouch (m : RecencyMap) (b k : Nat) :
    recFind (recTouch m b) k = if k = b then some 0 else (recFind m k).map (· + 1) := by
  unfold recTouch
  rw [recFind_recInsert]
  · by_cases hk : k = b
    · simp [hk]
    · simp [hk, recFind_map_succ, recFind_recErase]
  · simp [recFind_map_succ, recFind_recErase]

/-- An entry after an insertion. -/
theorem mem_recInsert {m : RecencyMap} {b n : Nat} {e : Nat × Nat} :
    e ∈ recInsert m b n ↔ e = (b, n) ∨ e ∈ m := by
  induction m with
  | nil => simp [recInsert]
  | cons d rest ih =>
    obtain ⟨j, x⟩ := d
    by_cases h : b < j
    · simp only [recInsert, h, if_true, List.mem_cons]
    · simp only [recInsert, h, if_false, List.mem_cons, ih]
      tauto

/-- An entry after a touch. -/
theorem mem_recTouch {m : RecencyMap} {b : Nat} {e : Nat × Nat} :
    e ∈ recTouch m b ↔ e = (b, 0) ∨ ∃ d ∈ m, d.1 ≠ b ∧ e = (d.1, d.2 + 1) := by
  unfold recTouch
  rw [mem_recInsert, List.mem_map]
  constructor
  · rintro (h | ⟨d, hd, rfl⟩)
    · exact .inl h
    · simp only [recErase, List.mem_filter, decide_eq_true_eq] at hd
      exact .inr ⟨d, hd.1, hd.2, rfl⟩
  · rintro (h | ⟨d, hd, hne, rfl⟩)
    · exact .inl h
    · exact .inr ⟨d, by simp [recErase, hd, hne], rfl⟩

/-- Inserting an absent block keeps the block ids rising. -/
theorem recInsert_sorted {m : RecencyMap} {b n : Nat} (h : m.Pairwise (fun e f => e.1 < f.1))
    (hb : ∀ e ∈ m, e.1 ≠ b) : (recInsert m b n).Pairwise (fun e f => e.1 < f.1) := by
  induction m with
  | nil => simp [recInsert]
  | cons d rest ih =>
    obtain ⟨j, x⟩ := d
    obtain ⟨hj, hrest⟩ := List.pairwise_cons.mp h
    have hjb : j ≠ b := hb _ List.mem_cons_self
    by_cases hlt : b < j
    · simp only [recInsert, if_pos hlt]
      refine List.pairwise_cons.mpr ⟨?_, h⟩
      intro e he
      rcases List.mem_cons.mp he with rfl | he
      · exact hlt
      · exact lt_trans hlt (hj e he)
    · simp only [recInsert, if_neg hlt]
      refine List.pairwise_cons.mpr ⟨?_, ih hrest (fun e he => hb e (List.mem_cons_of_mem _ he))⟩
      intro e he
      rcases mem_recInsert.mp he with rfl | he
      · show j < b
        omega
      · exact hj e he

/-- Inserting a counter that no entry has keeps the counters distinct. -/
theorem recInsert_distinct {m : RecencyMap} {b n : Nat} (h : m.Pairwise (fun e f => e.2 ≠ f.2))
    (hn : ∀ e ∈ m, e.2 ≠ n) : (recInsert m b n).Pairwise (fun e f => e.2 ≠ f.2) := by
  induction m with
  | nil => simp [recInsert]
  | cons d rest ih =>
    obtain ⟨j, x⟩ := d
    obtain ⟨hj, hrest⟩ := List.pairwise_cons.mp h
    by_cases hlt : b < j
    · simp only [recInsert, if_pos hlt]
      exact List.pairwise_cons.mpr ⟨fun e he => (hn e he).symm, h⟩
    · simp only [recInsert, if_neg hlt]
      refine List.pairwise_cons.mpr ⟨?_, ih hrest (fun e he => hn e (List.mem_cons_of_mem _ he))⟩
      intro e he
      rcases mem_recInsert.mp he with rfl | he
      · exact hn _ List.mem_cons_self
      · exact hj e he

/-- Erasing keeps the block ids rising and the counters distinct. -/
theorem recErase_pairwise {R : Nat × Nat → Nat × Nat → Prop} {m : RecencyMap} (b : Nat) (h : m.Pairwise R) :
    (recErase m b).Pairwise R :=
  h.filter _

/-- A touch keeps the block ids rising. -/
theorem recTouch_sorted {m : RecencyMap} (b : Nat) (h : m.Pairwise (fun e f => e.1 < f.1)) :
    (recTouch m b).Pairwise (fun e f => e.1 < f.1) := by
  refine recInsert_sorted (List.pairwise_map.mpr (recErase_pairwise b h)) ?_
  intro e he
  obtain ⟨d, hd, rfl⟩ := List.mem_map.mp he
  simpa [recErase] using (List.mem_filter.mp hd).2

/-- A touch keeps the counters distinct (R59). -/
theorem recTouch_distinct {m : RecencyMap} (b : Nat) (h : m.Pairwise (fun e f => e.2 ≠ f.2)) :
    (recTouch m b).Pairwise (fun e f => e.2 ≠ f.2) := by
  refine recInsert_distinct (List.pairwise_map.mpr ((recErase_pairwise b h).imp ?_)) ?_
  · intro e f hef
    simpa using hef
  · intro e he
    obtain ⟨d, -, rfl⟩ := List.mem_map.mp he
    simp

end Sys2Proof.Machine
end

