-- ==== Sys2Proof/Laws/Cache.lean ====
section
/-! SUPPORT. Slots, rows, placement and access: for each operation, once, everything it can do. -/

namespace Sys2Proof.Machine

variable (c : Cache)

@[simp] theorem Cache.setSlot_cfg (r i : Nat) (x : Slot) : (c.setSlot r i x).cfg = c.cfg := rfl
@[simp] theorem Cache.setSlot_recency (r i : Nat) (x : Slot) : (c.setSlot r i x).recency = c.recency := rfl
@[simp] theorem Cache.touch_cfg (b : Nat) : (c.touch b).cfg = c.cfg := rfl
@[simp] theorem Cache.touch_rows (b : Nat) : (c.touch b).rows = c.rows := rfl
@[simp] theorem Cache.touch_recency (b : Nat) : (c.touch b).recency = recTouch c.recency b := rfl
@[simp] theorem Cache.touch_row (b r : Nat) : (c.touch b).row r = c.row r := rfl
@[simp] theorem Cache.evict_cfg (x : Slot) : (c.evict x).cfg = c.cfg := by cases x <;> rfl
@[simp] theorem Cache.evict_rows (x : Slot) : (c.evict x).rows = c.rows := by cases x <;> rfl
@[simp] theorem Cache.evict_row (x : Slot) (r : Nat) : (c.evict x).row r = c.row r := by cases x <;> rfl

/-- The rows after a slot is set: that slot of that row, and nothing else. -/
theorem Cache.row_setSlot (r i r' : Nat) (x : Slot) :
    (c.setSlot r i x).row r' = if r' = r then (c.row r).set i x else c.row r' := by
  unfold Cache.setSlot Cache.row
  by_cases h : r' = r
  · subst h
    rw [if_pos rfl]
    by_cases hr : r' < c.rows.length
    · simp [hr]
    · simp [List.set_eq_of_length_le (Nat.le_of_not_lt hr), List.getElem?_eq_none (Nat.le_of_not_lt hr)]
  · simp [h, Ne.symm h]

/-- The number of rows stays. -/
@[simp] theorem Cache.setSlot_rows_length (r i : Nat) (x : Slot) :
    (c.setSlot r i x).rows.length = c.rows.length := by simp [Cache.setSlot]

/-- The lowest empty slot, or a full row (R54). -/
theorem firstEmpty_spec (row : List Slot) :
    match firstEmpty row with
    | some i => row[i]? = some .empty ∧ ∀ j, j < i → row[j]? ≠ some .empty
    | none => Slot.empty ∉ row := by
  induction row with
  | nil => simp [firstEmpty]
  | cons x rest ih =>
    cases x with
    | empty => simp [firstEmpty]
    | occupied b t =>
      simp only [firstEmpty]
      cases h : firstEmpty rest with
      | none =>
        rw [h] at ih
        simpa using ih
      | some i =>
        rw [h] at ih
        refine ⟨by simpa using ih.1, ?_⟩
        intro j hj
        cases j with
        | zero => simp
        | succ j => simpa using ih.2 j (Nat.lt_of_succ_lt_succ hj)

/-- "Strictly smaller" is a strict order of the keys. -/
theorem VictimKey.less_trans {x y z : VictimKey} (h : x.less y = true) (h' : y.less z = true) : x.less z = true := by
  cases x <;> cases y <;> cases z <;> (simp_all [VictimKey.less]; try omega)

/-- Of two keys neither of which is smaller, both compare alike with a third. -/
theorem VictimKey.less_of_not_less {x y z : VictimKey} (h : x.less y = false) (h' : x.less z = true) :
    y.less z = true := by
  cases x <;> cases y <;> cases z <;> (simp_all [VictimKey.less]; try omega)

@[simp] theorem VictimKey.less_irrefl (x : VictimKey) : x.less x = false := by
  cases x <;> simp [VictimKey.less]

/-- The victim's key is a largest one, and every key before it is strictly smaller (R55). -/
theorem firstLargest_spec {keys : List VictimKey} (h : keys ≠ []) :
    ∃ k, keys[firstLargest keys]? = some k ∧ (∀ k' ∈ keys, k.less k' = false) ∧
      ∀ j, j < firstLargest keys → ∃ k', keys[j]? = some k' ∧ k'.less k = true := by
  induction keys with
  | nil => exact absurd rfl h
  | cons x rest ih =>
    by_cases hany : rest.any (fun k' => x.less k') = true
    · obtain ⟨y, hy, hxy⟩ := List.any_eq_true.mp hany
      obtain ⟨k, hk, hmax, hmin⟩ := ih (List.ne_nil_of_mem hy)
      have hxk : x.less k = true := by
        by_contra hcon
        have hyk : k.less y = true := VictimKey.less_of_not_less (by simpa using hcon) hxy
        rw [hmax y hy] at hyk
        exact absurd hyk (by simp)
      have heq : firstLargest (x :: rest) = firstLargest rest + 1 := by simp [firstLargest, hany]
      rw [heq]
      refine ⟨k, by simpa using hk, ?_, ?_⟩
      · intro k' hk'
        rcases List.mem_cons.mp hk' with rfl | hk'
        · by_contra hcon
          have := VictimKey.less_trans hxk (by simpa using hcon)
          simp at this
        · exact hmax k' hk'
      · intro j hj
        cases j with
        | zero => exact ⟨x, by simp, hxk⟩
        | succ j => simpa using hmin j (by omega)
    · have heq : firstLargest (x :: rest) = 0 := by simp [firstLargest, hany]
      rw [heq]
      refine ⟨x, by simp, ?_, by simp⟩
      intro k' hk'
      rcases List.mem_cons.mp hk' with rfl | hk'
      · simp
      · by_contra hcon
        exact hany (List.any_eq_true.mpr ⟨k', hk', by simpa using hcon⟩)

/-- Place: into the lowest empty slot; in a full row into the victim's, whose block leaves the recency map; and the block
placed is touched (R54). -/
theorem Cache.place_cases (r b t : Nat) :
    (∃ i, firstEmpty (c.row r) = some i ∧ c.place r b t = (c.setSlot r i (.occupied b t)).touch b) ∨
    (firstEmpty (c.row r) = none ∧
      c.place r b t =
        ((c.evict ((c.row r)[c.victim r]?.getD Slot.empty)).setSlot r (c.victim r) (.occupied b t)).touch b) := by
  unfold Cache.place
  cases h : firstEmpty (c.row r) with
  | none => exact .inr ⟨rfl, rfl⟩
  | some i => exact .inl ⟨i, rfl, rfl⟩

@[simp] theorem Cache.place_cfg (r b t : Nat) : (c.place r b t).cfg = c.cfg := by
  rcases c.place_cases r b t with ⟨i, -, h⟩ | ⟨-, h⟩ <;> simp [h]

/-- Which slot Place writes, and that it writes no other (R54). -/
theorem Cache.place_row (r b t r' : Nat) :
    (c.place r b t).row r' =
      if r' = r then (c.row r).set ((firstEmpty (c.row r)).getD (c.victim r)) (.occupied b t) else c.row r' := by
  rcases c.place_cases r b t with ⟨i, hi, h⟩ | ⟨hn, h⟩
  · rw [h, hi, Cache.touch_row, Cache.row_setSlot]
    rfl
  · rw [h, hn, Cache.touch_row, Cache.row_setSlot]
    simp

/-- One level's access, by its associativity and kind (R51 to R54, R61). -/
theorem Cache.access_cases (kind : AccessKind) (a : Addr) :
    (c.cfg.assoc = 1 ∧ c.access kind a = c.accessDirect kind a) ∨
    (c.cfg.assoc ≠ 1 ∧ c.access kind a = c.accessAssoc kind a) := by
  unfold Cache.access
  by_cases h : c.cfg.assoc = 1
  · exact .inl ⟨h, by simp [h]⟩
  · exact .inr ⟨h, by simp [h]⟩

/-- A direct-mapped access leaves the level as it was, on a HIT, or writes the row's one slot (R51, R53). -/
theorem Cache.accessDirect_cases (kind : AccessKind) (a : Addr) :
    (kind = .load ∧ c.accessDirect kind a = (.hit, c) ∧
      ((c.row (rowOf c.cfg a))[0]?.getD Slot.empty).holds (blockOf c.cfg a) = true) ∨
    (∃ cls, c.accessDirect kind a = (cls, c.setSlot (rowOf c.cfg a) 0 (lineOf c.cfg a)) ∧
      ((kind = .load ∧ cls = .miss ∧ ((c.row (rowOf c.cfg a))[0]?.getD Slot.empty).holds (blockOf c.cfg a) = false) ∨
        (kind = .store ∧ cls = .sw))) := by
  cases kind with
  | store => exact .inr ⟨.sw, rfl, .inr ⟨rfl, rfl⟩⟩
  | load =>
    by_cases h : ((c.row (rowOf c.cfg a))[0]?.getD Slot.empty).holds (blockOf c.cfg a) = true
    · exact .inl ⟨rfl, by simp [Cache.accessDirect, h], h⟩
    · exact .inr ⟨.miss, by simp [Cache.accessDirect, h], .inl ⟨rfl, rfl, by simpa using h⟩⟩

/-- A set-associative access touches the block, on a HIT, or places it (R52, R54). -/
theorem Cache.accessAssoc_cases (kind : AccessKind) (a : Addr) :
    (kind = .load ∧ c.accessAssoc kind a = (.hit, c.touch (blockOf c.cfg a)) ∧
      c.rowHolds (rowOf c.cfg a) (blockOf c.cfg a) = true) ∨
    (∃ cls, c.accessAssoc kind a = (cls, c.place (rowOf c.cfg a) (blockOf c.cfg a) (tagOf c.cfg a)) ∧
      ((kind = .load ∧ cls = .miss ∧ c.rowHolds (rowOf c.cfg a) (blockOf c.cfg a) = false) ∨
        (kind = .store ∧ cls = .sw))) := by
  cases kind with
  | store => exact .inr ⟨.sw, rfl, .inr ⟨rfl, rfl⟩⟩
  | load =>
    by_cases h : c.rowHolds (rowOf c.cfg a) (blockOf c.cfg a) = true
    · exact .inl ⟨rfl, by simp [Cache.accessAssoc, h], h⟩
    · exact .inr ⟨.miss, by simp [Cache.accessAssoc, h], .inl ⟨rfl, rfl, by simpa using h⟩⟩

/-- No access changes a level's configuration (R23). -/
@[simp] theorem Cache.access_cfg (kind : AccessKind) (a : Addr) : (c.access kind a).2.cfg = c.cfg := by
  rcases c.access_cases kind a with ⟨-, h⟩ | ⟨-, h⟩
  · rcases c.accessDirect_cases kind a with ⟨-, h', -⟩ | ⟨cls, h', -⟩ <;> simp [h, h']
  · rcases c.accessAssoc_cases kind a with ⟨-, h', -⟩ | ⟨cls, h', -⟩ <;> simp [h, h']

/-- The hierarchy's access, level by level (R62). -/
theorem Hierarchy.access_cases (h : Hierarchy) (kind : AccessKind) (a : Addr) (pc : Word) :
    (h = .noCache ∧ h.access kind a pc = (.noCache, [])) ∨
    (∃ l1, h = .oneLevel l1 ∧
      h.access kind a pc =
        (.oneLevel (l1.access kind a).2, [⟨.l1, (l1.access kind a).1, pc, a, rowOf l1.cfg a⟩])) ∨
    (∃ l1 l2, h = .twoLevels l1 l2 ∧ consultsL2 kind (l1.access kind a).1 = false ∧
      h.access kind a pc =
        (.twoLevels (l1.access kind a).2 l2, [⟨.l1, (l1.access kind a).1, pc, a, rowOf l1.cfg a⟩])) ∨
    (∃ l1 l2, h = .twoLevels l1 l2 ∧ consultsL2 kind (l1.access kind a).1 = true ∧
      h.access kind a pc =
        (.twoLevels (l1.access kind a).2 (l2.access kind a).2,
          [⟨.l1, (l1.access kind a).1, pc, a, rowOf l1.cfg a⟩,
           ⟨.l2, (l2.access kind a).1, pc, a, rowOf l2.cfg a⟩])) := by
  cases h with
  | noCache => exact .inl ⟨rfl, rfl⟩
  | oneLevel l1 => exact .inr (.inl ⟨l1, rfl, rfl⟩)
  | twoLevels l1 l2 =>
    right; right
    cases hc : consultsL2 kind (l1.access kind a).1 with
    | true => exact .inr ⟨l1, l2, rfl, hc, by simp [Hierarchy.access, hc]⟩
    | false => exact .inl ⟨l1, l2, rfl, hc, by simp [Hierarchy.access, hc]⟩

end Sys2Proof.Machine
end

