-- ==== Sys2Proof/Laws/CacheInv.lean ====
section
/-! SUPPORT. The invariant of a cache level: a fresh level has it, and setting a slot, evicting, touching, placing and accessing keep it. -/

namespace Sys2Proof.Machine

/-- A legal triple has at least one row (R48). -/
theorem Triple.rowCount_pos {t : Triple} (h : t.Legal) : 0 < t.rowCount := by
  obtain ⟨hs, ha, hb, hm⟩ := h
  have hpos : 0 < t.assoc * t.blockSize := Nat.mul_pos ha hb
  exact Nat.div_pos (Nat.le_of_dvd hs (Nat.dvd_of_mod_eq_zero hm)) hpos

/-- An access goes to one of the level's rows (R49). -/
theorem rowOf_lt {t : Triple} (h : t.Legal) (a : Addr) : rowOf t a < t.rowCount :=
  Nat.mod_lt _ (Triple.rowCount_pos h)

/-- The line an access places is placed right (R49). -/
theorem lineOf_placedRight (t : Triple) (a : Addr) : (lineOf t a).placedRight t (rowOf t a) = true := by
  have h := Nat.div_mul_le_self a.toNat t.blockSize
  have ha := a.isLt
  simp only [lineOf, Slot.placedRight, rowOf, tagOf, blockOf, decide_eq_true_eq]
  exact ⟨trivial, trivial, by omega⟩

variable {c : Cache}

/-- A row the level has is one of its rows. -/
theorem Cache.row_mem {r : Nat} (h : r < c.rows.length) : c.row r ∈ c.rows := by
  simp [Cache.row, h]

/-- A slot of some row is a slot of a row the level has. -/
theorem Cache.lt_of_mem_row {r : Nat} {x : Slot} (h : x ∈ c.row r) : r < c.rows.length := by
  by_contra hn
  simp [Cache.row, List.getElem?_eq_none (Nat.le_of_not_lt hn)] at h

/-- Residence, by rows. -/
theorem Cache.resident_iff {b : Nat} : c.resident b = true ↔ ∃ r, ∃ x ∈ c.row r, x.holds b = true := by
  simp only [Cache.resident, List.any_eq_true]
  constructor
  · rintro ⟨row, hrow, x, hx, hb⟩
    obtain ⟨r, hr, rfl⟩ := List.getElem_of_mem hrow
    exact ⟨r, x, by simpa [Cache.row, hr] using hx, hb⟩
  · rintro ⟨r, x, hx, hb⟩
    exact ⟨c.row r, Cache.row_mem (Cache.lt_of_mem_row hx), x, hx, hb⟩

/-- Every row an access goes to has assoc slots. -/
theorem Cache.Inv.row_length (h : c.Inv) (a : Addr) : (c.row (rowOf c.cfg a)).length = c.cfg.assoc :=
  h.rowLength _ (Cache.row_mem (h.rowCount ▸ rowOf_lt h.legal a))

/-- Residence after a slot is set: the new line's block, and every block that the slot did not hold. -/
theorem Cache.resident_setSlot {r i k : Nat} {x : Slot} (hi : i < (c.row r).length)
    (h : x.holds k = true ∨ (c.resident k = true ∧ ((c.row r)[i]?.getD Slot.empty).holds k = false)) :
    (c.setSlot r i x).resident k = true := by
  rw [Cache.resident_iff]
  rcases h with h | ⟨h, hk⟩
  · refine ⟨r, x, ?_, h⟩
    rw [Cache.row_setSlot, if_pos rfl]
    exact List.mem_set (l := c.row r) hi x
  · obtain ⟨r', y, hy, hyk⟩ := Cache.resident_iff.mp h
    refine ⟨r', y, ?_, hyk⟩
    rw [Cache.row_setSlot]
    split
    · rename_i hr
      subst hr
      obtain ⟨j, hj, rfl⟩ := List.getElem_of_mem hy
      have hji : j ≠ i := by
        rintro rfl
        simp [hj, hyk] at hk
      exact List.mem_of_getElem? (i := j) (by simp [Ne.symm hji, hj])
    · exact hy

/-- The shape of a level and the place of its lines stay when a slot takes a line that is placed right. -/
theorem Cache.Inv.shape_setSlot (h : c.Inv) {r i : Nat} {x : Slot} (hx : x.placedRight c.cfg r = true) :
    (c.setSlot r i x).rows.length = c.cfg.rowCount ∧
    (∀ row ∈ (c.setSlot r i x).rows, row.length = c.cfg.assoc) ∧
    ∀ r', ∀ y ∈ (c.setSlot r i x).row r', y.placedRight c.cfg r' = true := by
  refine ⟨by simpa using h.rowCount, ?_, ?_⟩
  · intro row hrow
    rcases List.mem_or_eq_of_mem_set hrow with hrow | rfl
    · exact h.rowLength row hrow
    · rw [List.length_set]
      by_cases hr : r < c.rows.length
      · exact h.rowLength _ (Cache.row_mem hr)
      · simp only [Cache.setSlot, List.set_eq_of_length_le (Nat.le_of_not_lt hr)] at hrow
        simpa using h.rowLength _ hrow
  · intro r' y hy
    rw [Cache.row_setSlot] at hy
    split at hy
    · rename_i hr
      subst hr
      rcases List.mem_or_eq_of_mem_set hy with hy | rfl
      · exact h.placed _ y hy
      · exact hx
    · exact h.placed _ y hy

/-- A fresh level is in order (R124). -/
theorem Cache.fresh_inv {t : Triple} (h : t.Legal) : (Cache.fresh t).Inv where
  legal := h
  rowCount := by simp [Cache.fresh]
  rowLength := by
    intro row hrow
    rw [List.eq_of_mem_replicate hrow]
    simp [Cache.fresh]
  placed := by
    intro r x hx
    have hr := Cache.lt_of_mem_row hx
    have hrow := Cache.row_mem hr
    rw [List.eq_of_mem_replicate hrow] at hx
    rw [List.eq_of_mem_replicate hx]
    rfl
  sorted := List.Pairwise.nil
  distinct := List.Pairwise.nil
  resident := by intro e he; cases he
  direct := fun _ => rfl

/-- Touching a resident block of a set-associative level keeps it in order (R58, R59). -/
theorem Cache.Inv.touch (h : c.Inv) (ha : c.cfg.assoc ≠ 1) {b : Nat} (hb : c.resident b = true) : (c.touch b).Inv where
  legal := h.legal
  rowCount := h.rowCount
  rowLength := h.rowLength
  placed := h.placed
  sorted := recTouch_sorted b h.sorted
  distinct := recTouch_distinct b h.distinct
  resident := by
    intro e he
    rcases mem_recTouch.mp he with rfl | ⟨d, hd, -, rfl⟩
    · exact hb
    · exact h.resident d hd
  direct := fun h1 => absurd h1 ha

/-- A direct-mapped level that writes its slot stays in order (R51, R53, R60). -/
theorem Cache.Inv.setSlot_direct (h : c.Inv) (ha : c.cfg.assoc = 1) {r i : Nat} {x : Slot}
    (hx : x.placedRight c.cfg r = true) : (c.setSlot r i x).Inv where
  legal := h.legal
  rowCount := (h.shape_setSlot hx).1
  rowLength := (h.shape_setSlot hx).2.1
  placed := (h.shape_setSlot hx).2.2
  sorted := h.sorted
  distinct := h.distinct
  resident := by
    intro e he
    rw [Cache.setSlot_recency, h.direct ha] at he
    cases he
  direct := h.direct

/-- Setting a slot of a set-associative level and touching the new line's block keeps it in order, where every block with an
entry is the new line's or another one than the slot held. -/
theorem Cache.Inv.setSlot_touch {c' : Cache} (h : c.Inv) (ha : c.cfg.assoc ≠ 1) (hcfg : c'.cfg = c.cfg)
    (hrows : c'.rows = c.rows) (hsorted : c'.recency.Pairwise (fun e f => e.1 < f.1))
    (hdistinct : c'.recency.Pairwise (fun e f => e.2 ≠ f.2)) {r i b tag : Nat} (hi : i < (c.row r).length)
    (hx : (Slot.occupied b tag).placedRight c.cfg r = true)
    (hres : ∀ e ∈ c'.recency, e.1 ≠ b → c.resident e.1 = true ∧ ((c.row r)[i]?.getD Slot.empty).holds e.1 = false) :
    ((c'.setSlot r i (.occupied b tag)).touch b).Inv := by
  have hrow : ∀ k, c'.row k = c.row k := fun k => by simp [Cache.row, hrows]
  have hset : (c'.setSlot r i (.occupied b tag)).rows = (c.setSlot r i (.occupied b tag)).rows := by
    simp [Cache.setSlot, hrows, hrow]
  obtain ⟨s1, s2, s3⟩ := h.shape_setSlot (i := i) hx
  have hrow' : ∀ k, ((c'.setSlot r i (.occupied b tag)).touch b).row k = (c.setSlot r i (.occupied b tag)).row k := by
    intro k
    rw [Cache.touch_row]
    simp [Cache.row, hset]
  have hresident : ∀ k, (c.setSlot r i (.occupied b tag)).resident k = true →
      ((c'.setSlot r i (.occupied b tag)).touch b).resident k = true := by
    intro k hk
    simpa [Cache.resident, hset] using hk
  refine ⟨?_, ?_, ?_, ?_, recTouch_sorted b hsorted, recTouch_distinct b hdistinct, ?_, ?_⟩
  · simpa [hcfg] using h.legal
  · simpa [hset, hcfg] using s1
  · simpa [hset, hcfg] using s2
  · intro k y hy
    rw [hrow'] at hy
    simpa [hcfg] using s3 k y hy
  · intro e he
    apply hresident
    apply Cache.resident_setSlot hi
    rcases mem_recTouch.mp he with rfl | ⟨d, hd, hdb, rfl⟩
    · exact .inl (by simp [Slot.holds])
    · exact .inr (hres d hd hdb)
  · intro h1
    exact absurd (by simpa [hcfg] using h1) ha

/-- The victim is a slot of the row (R55). -/
theorem Cache.victim_lt {r : Nat} (h : c.row r ≠ []) : c.victim r < (c.row r).length := by
  obtain ⟨k, hk, -, -⟩ := firstLargest_spec (keys := (c.row r).map (victimKey c.recency)) (by simpa using h)
  have := (List.getElem?_eq_some_iff.mp hk).1
  simpa [Cache.victim] using this

/-- Placing a line keeps a set-associative level in order (R54 to R58). -/
theorem Cache.Inv.place (h : c.Inv) (ha : c.cfg.assoc ≠ 1) {r b tag : Nat} (hne : c.row r ≠ [])
    (hx : (Slot.occupied b tag).placedRight c.cfg r = true) : (c.place r b tag).Inv := by
  rcases c.place_cases r b tag with ⟨i, hi, heq⟩ | ⟨-, heq⟩
  · have hspec := firstEmpty_spec (c.row r)
    rw [hi] at hspec
    have hlt := (List.getElem?_eq_some_iff.mp hspec.1).1
    rw [heq]
    refine h.setSlot_touch ha rfl rfl h.sorted h.distinct hlt hx ?_
    intro e he _
    exact ⟨h.resident e he, by simp [hspec.1, Slot.holds]⟩
  · rw [heq]
    have hlt := Cache.victim_lt hne
    cases hv : (c.row r)[c.victim r]?.getD Slot.empty with
    | empty =>
      refine h.setSlot_touch ha rfl rfl h.sorted h.distinct hlt hx ?_
      intro e he _
      exact ⟨h.resident e he, by simp [hv, Slot.holds]⟩
    | occupied v t =>
      refine h.setSlot_touch (c' := c.evict (.occupied v t)) ha rfl rfl (recErase_pairwise v h.sorted)
        (recErase_pairwise v h.distinct) hlt hx ?_
      intro e he _
      obtain ⟨he, hev⟩ := List.mem_filter.mp he
      have hev : e.1 ≠ v := by simpa using hev
      exact ⟨h.resident e he, by simp [hv, Slot.holds, Ne.symm hev]⟩

/-- Every access keeps a level in order. -/
theorem Cache.Inv.access (h : c.Inv) (kind : AccessKind) (a : Addr) : (c.access kind a).2.Inv := by
  have hne : c.row (rowOf c.cfg a) ≠ [] := by
    intro hn
    have hlen := h.row_length a
    rw [hn, List.length_nil] at hlen
    have := h.legal.2.1
    omega
  rcases c.access_cases kind a with ⟨ha, heq⟩ | ⟨ha, heq⟩ <;> rw [heq]
  · rcases c.accessDirect_cases kind a with ⟨-, heq, -⟩ | ⟨cls, heq, -⟩ <;> rw [heq]
    · exact h
    · exact h.setSlot_direct ha (lineOf_placedRight _ _)
  · rcases c.accessAssoc_cases kind a with ⟨-, heq, hhit⟩ | ⟨cls, heq, -⟩ <;> rw [heq]
    · refine h.touch ha (Cache.resident_iff.mpr ?_)
      obtain ⟨x, hx, hb⟩ := List.any_eq_true.mp hhit
      exact ⟨_, x, hx, hb⟩
    · exact h.place ha hne (lineOf_placedRight _ _)

end Sys2Proof.Machine
end

