-- ==== Sys2Proof/Laws/Decode.lean ====
section
/-! SUPPORT. The fields of a word built in each format, a word built back from its fields, and the encoder's spare function code. -/

namespace Sys2Proof

/-! Format RRR. -/

/-- Every bit of an RRR word (R72). -/
theorem wordRRR_bit (fn : Fn) (a b c : RegIdx) (i : Nat) :
    (wordRRR fn a b c).getLsbD i =
      if i < 4 then fn.getLsbD i else if i < 7 then c.getLsbD (i - 4)
      else if i < 10 then b.getLsbD (i - 7) else a.getLsbD (i - 10) := by
  change BitVec.getLsbD (w := 3 + 3 + 3 + 3 + 4) (0b000#3 ++ a ++ b ++ c ++ fn) i = _
  simp only [BitVec.getLsbD_append, BitVec.getLsbD_zero, Nat.sub_sub]
  by_cases h4 : i < 4
  · simp [h4]
  by_cases h7 : i < 7
  · simp [h4, h7, show i - 4 < 3 by omega]
  by_cases h10 : i < 10
  · simp [h4, h7, h10, show ¬ i - 4 < 3 by omega, show i - 7 < 3 by omega]
  by_cases h13 : i < 13
  · simp [h4, h7, h10, show ¬ i - 4 < 3 by omega, show ¬ i - 7 < 3 by omega, show i - 10 < 3 by omega]
  · simp [h4, h7, h10, show ¬ i - 4 < 3 by omega, show ¬ i - 7 < 3 by omega, show ¬ i - 10 < 3 by omega,
      BitVec.getLsbD_of_ge a (i - 10) (by omega)]

section rrr
variable (fn : Fn) (a b c : RegIdx)

@[simp] theorem opField_wordRRR : opField (wordRRR fn a b c) = 0b000 := by
  ext i hi
  simp [opField, wordRRR_bit, show ¬ 13 + i < 4 by omega, show ¬ 13 + i < 7 by omega, show ¬ 13 + i < 10 by omega,
    BitVec.getLsbD_of_ge a (13 + i - 10) (by omega)]
@[simp] theorem rAField_wordRRR : rAField (wordRRR fn a b c) = a := by
  ext i hi
  simp [rAField, wordRRR_bit, show ¬ 10 + i < 4 by omega, show ¬ 10 + i < 7 by omega, BitVec.getLsbD_eq_getElem hi]
@[simp] theorem rBField_wordRRR : rBField (wordRRR fn a b c) = b := by
  ext i hi
  simp [rBField, wordRRR_bit, show ¬ 7 + i < 4 by omega, show 7 + i < 10 by omega, BitVec.getLsbD_eq_getElem hi]
@[simp] theorem rCField_wordRRR : rCField (wordRRR fn a b c) = c := by
  ext i hi
  simp [rCField, wordRRR_bit, show 4 + i < 7 by omega, BitVec.getLsbD_eq_getElem hi]
@[simp] theorem fnField_wordRRR : fnField (wordRRR fn a b c) = fn := by
  ext i hi
  simp [fnField, wordRRR_bit, hi]

end rrr

/-! Format RRI. -/

/-- Every bit of an RRI word (R73). -/
theorem wordRRI_bit (op : Opcode) (a b : RegIdx) (imm : Imm7) (i : Nat) :
    (wordRRI op a b imm).getLsbD i =
      if i < 7 then imm.getLsbD i else if i < 10 then b.getLsbD (i - 7)
      else if i < 13 then a.getLsbD (i - 10) else op.getLsbD (i - 13) := by
  change BitVec.getLsbD (w := 3 + 3 + 3 + 7) (op ++ a ++ b ++ imm) i = _
  simp only [BitVec.getLsbD_append, Nat.sub_sub]
  by_cases h7 : i < 7
  · simp [h7]
  by_cases h10 : i < 10
  · simp [h7, h10, show i - 7 < 3 by omega]
  by_cases h13 : i < 13
  · simp [h7, h10, h13, show ¬ i - 7 < 3 by omega, show i - 10 < 3 by omega]
  · simp [h7, h10, h13, show ¬ i - 7 < 3 by omega, show ¬ i - 10 < 3 by omega]

section rri
variable (op : Opcode) (a b : RegIdx) (imm : Imm7)

@[simp] theorem opField_wordRRI : opField (wordRRI op a b imm) = op := by
  ext i hi
  simp [opField, wordRRI_bit, show ¬ 13 + i < 7 by omega, show ¬ 13 + i < 10 by omega, BitVec.getLsbD_eq_getElem hi]
@[simp] theorem rAField_wordRRI : rAField (wordRRI op a b imm) = a := by
  ext i hi
  simp [rAField, wordRRI_bit, show ¬ 10 + i < 7 by omega, show 10 + i < 13 by omega, BitVec.getLsbD_eq_getElem hi]
@[simp] theorem rBField_wordRRI : rBField (wordRRI op a b imm) = b := by
  ext i hi
  simp [rBField, wordRRI_bit, show 7 + i < 10 by omega, BitVec.getLsbD_eq_getElem hi]
@[simp] theorem imm7Field_wordRRI : imm7Field (wordRRI op a b imm) = imm := by
  ext i hi
  simp [imm7Field, wordRRI_bit, hi]

end rri

/-! Format I13. -/

/-- Every bit of an I13 word (R74). -/
theorem wordI13_bit (op : Opcode) (imm : Imm13) (i : Nat) :
    (wordI13 op imm).getLsbD i = if i < 13 then imm.getLsbD i else op.getLsbD (i - 13) := by
  change BitVec.getLsbD (w := 3 + 13) (op ++ imm) i = _
  simp only [BitVec.getLsbD_append]

@[simp] theorem opField_wordI13 (op : Opcode) (imm : Imm13) : opField (wordI13 op imm) = op := by
  ext i hi
  simp [opField, wordI13_bit, BitVec.getLsbD_eq_getElem hi]
@[simp] theorem imm13Field_wordI13 (op : Opcode) (imm : Imm13) : imm13Field (wordI13 op imm) = imm := by
  ext i hi
  simp [imm13Field, wordI13_bit, hi]

/-! A word is its fields. -/

/-- Two words with the same bits below 16 are one word. -/
theorem Word.eq_of_bits {v w : Word} (h : ∀ i, i < 16 → v.getLsbD i = w.getLsbD i) : v = w := by
  apply BitVec.eq_of_getLsbD_eq
  exact h

/-- A word with opcode 000 is the RRR word of its fields. -/
theorem wordRRR_fields {w : Word} (h : opField w = 0b000) :
    wordRRR (fnField w) (rAField w) (rBField w) (rCField w) = w := by
  apply Word.eq_of_bits
  intro i hi
  have hop : ∀ j, j < 3 → w.getLsbD (13 + j) = false := fun j hj => by
    have := congrArg (fun o => o.getLsbD j) h
    simpa [opField, BitVec.getLsbD_extractLsb', hj] using this
  rw [wordRRR_bit]
  simp only [fnField, rAField, rBField, rCField, BitVec.getLsbD_extractLsb']
  split
  · simp [*]
  split
  · simp [show i - 4 < 3 by omega, show 4 + (i - 4) = i by omega]
  split
  · simp [show i - 7 < 3 by omega, show 7 + (i - 7) = i by omega]
  · by_cases h13 : i < 13
    · simp [show i - 10 < 3 by omega, show 10 + (i - 10) = i by omega]
    · have := hop (i - 13) (by omega)
      rw [show 13 + (i - 13) = i by omega] at this
      simp [this, show ¬ i - 10 < 3 by omega]

/-- A word is the RRI word of its fields. -/
theorem wordRRI_fields (w : Word) : wordRRI (opField w) (rAField w) (rBField w) (imm7Field w) = w := by
  apply Word.eq_of_bits
  intro i hi
  rw [wordRRI_bit]
  simp only [opField, rAField, rBField, imm7Field, BitVec.getLsbD_extractLsb']
  split
  · simp [*]
  split
  · simp [show i - 7 < 3 by omega, show 7 + (i - 7) = i by omega]
  split
  · simp [show i - 10 < 3 by omega, show 10 + (i - 10) = i by omega]
  · simp [show i - 13 < 3 by omega, show 13 + (i - 13) = i by omega]

/-- A word is the I13 word of its fields. -/
theorem wordI13_fields (w : Word) : wordI13 (opField w) (imm13Field w) = w := by
  apply Word.eq_of_bits
  intro i hi
  rw [wordI13_bit]
  simp only [opField, imm13Field, BitVec.getLsbD_extractLsb']
  split
  · simp [*]
  · simp [show i - 13 < 3 by omega, show 13 + (i - 13) = i by omega]

/-! The spare function code. -/

/-- The function code of the encoder's undefined word is none of the six (R82). -/
theorem FuncCodes.unusedFn_not_mem (fc : FuncCodes) : fc.unusedFn ∉ fc.codes := by
  unfold FuncCodes.unusedFn
  cases h : ([0, 1, 2, 3, 4, 5, 6] : List Fn).find? (fun f => decide (f ∉ fc.codes)) with
  | some f =>
    have := List.find?_some h
    simpa using this
  | none =>
    exfalso
    have hsub : ([0, 1, 2, 3, 4, 5, 6] : List Fn) ⊆ fc.codes := by
      intro f hf
      simpa using List.find?_eq_none.mp h f hf
    have hlen := ((show ([0, 1, 2, 3, 4, 5, 6] : List Fn).Nodup by decide).subperm hsub).length_le
    simp [FuncCodes.codes] at hlen

/-- The six codes are pairwise distinct, each spelled out (R79). -/
theorem FuncCodes.distinct_iff (fc : FuncCodes) :
    fc.Distinct ↔
      (fc.add ≠ fc.sub ∧ fc.add ≠ fc.or ∧ fc.add ≠ fc.and ∧ fc.add ≠ fc.slt ∧ fc.add ≠ fc.jr) ∧
      (fc.sub ≠ fc.or ∧ fc.sub ≠ fc.and ∧ fc.sub ≠ fc.slt ∧ fc.sub ≠ fc.jr) ∧
      (fc.or ≠ fc.and ∧ fc.or ≠ fc.slt ∧ fc.or ≠ fc.jr) ∧ (fc.and ≠ fc.slt ∧ fc.and ≠ fc.jr) ∧ fc.slt ≠ fc.jr := by
  simp [FuncCodes.Distinct, FuncCodes.codes]

/-- The decoder under opcode 000 goes by the function code alone (R78, R80). -/
theorem decodeWith_of_op_zero {fc : FuncCodes} {w : Word} (h : opField w = 0b000) :
    decodeWith fc w = decodeFn fc w := by
  simp [decodeWith, h]

end Sys2Proof
end

