-- ==== Sys2Proof/Laws/Memory.lean ====
section
/-! SUPPORT. The memory's canonical form: every write keeps it, a read sees the last write, and two memories in the form that read alike are equal. -/

namespace Sys2Proof.Machine

/-- The canonical form as a proposition. -/
theorem Memory.wf_iff (m : Memory) :
    m.wf = true ↔ m.Pairwise (fun c d => c.1 < d.1) ∧ ∀ c ∈ m, c.1 < 8192 ∧ c.2 ≠ unlistedCell := by
  simp [Memory.wf]

/-- The form of a list gives the form of its tail, with every later address above the first. -/
theorem Memory.wf_cons {c : Nat × Word} {m : Memory} :
    Memory.wf (c :: m) = true ↔
      (∀ d ∈ m, c.1 < d.1) ∧ c.1 < 8192 ∧ c.2 ≠ unlistedCell ∧ Memory.wf m = true := by
  simp only [Memory.wf_iff, List.pairwise_cons, List.forall_mem_cons]
  tauto

/-- A list whose addresses all lie above a lists nothing for a. -/
theorem cellAt_of_below {m : Memory} {a : Nat} (h : ∀ d ∈ m, a < d.1) : cellAt m a = unlistedCell := by
  induction m with
  | nil => rfl
  | cons c rest ih =>
    obtain ⟨k, x⟩ := c
    have hk : a < k := h _ List.mem_cons_self
    simp only [cellAt, if_neg (show ¬ k = a by omega)]
    exact ih (fun d hd => h d (List.mem_cons_of_mem _ hd))

/-- Setting one cell leaves every other as it was, in any list. -/
theorem cellAt_setCell_ne {m : Memory} {a b : Nat} {v : Word} (h : b ≠ a) :
    cellAt (setCell m a v) b = cellAt m b := by
  induction m with
  | nil => by_cases hv : v = unlistedCell <;> simp [setCell, cellAt, hv, Ne.symm h]
  | cons c rest ih =>
    obtain ⟨k, x⟩ := c
    rcases lt_trichotomy a k with hak | rfl | hak
    · by_cases hv : v = unlistedCell <;> simp [setCell, cellAt, hak, hv, Ne.symm h]
    · by_cases hv : v = unlistedCell <;> simp [setCell, cellAt, hv, Ne.symm h]
    · simp [setCell, cellAt, show ¬ a < k by omega, show ¬ a = k by omega, ih]

/-- The cell just set holds its new value, in a list with rising addresses. -/
theorem cellAt_setCell_self {m : Memory} {a : Nat} {v : Word} (h : m.Pairwise (fun c d => c.1 < d.1)) :
    cellAt (setCell m a v) a = v := by
  induction m with
  | nil => by_cases hv : v = unlistedCell <;> simp [setCell, cellAt, hv]
  | cons c rest ih =>
    obtain ⟨k, x⟩ := c
    obtain ⟨hk, hrest⟩ := List.pairwise_cons.mp h
    rcases lt_trichotomy a k with hak | rfl | hak
    · by_cases hv : v = unlistedCell
      · have hb : cellAt rest a = unlistedCell :=
          cellAt_of_below (fun d hd => lt_trans hak (hk d hd))
        simp [setCell, cellAt, hak, hv, show ¬ k = a by omega, hb]
      · simp [setCell, cellAt, hak, hv]
    · by_cases hv : v = unlistedCell
      · simp [setCell, hv, cellAt_of_below hk]
      · simp [setCell, cellAt, hv]
    · simp [setCell, cellAt, show ¬ a < k by omega, show ¬ a = k by omega, show ¬ k = a by omega, ih hrest]

/-- A cell listed after a write is the one written or one listed before. -/
theorem mem_setCell {m : Memory} {a : Nat} {v : Word} {c : Nat × Word} (h : c ∈ setCell m a v) :
    (c = (a, v) ∧ v ≠ unlistedCell) ∨ c ∈ m := by
  induction m with
  | nil =>
    by_cases hv : v = unlistedCell <;> simp [setCell, hv] at h
    exact .inl ⟨h, hv⟩
  | cons d rest ih =>
    obtain ⟨k, x⟩ := d
    rcases lt_trichotomy a k with hak | rfl | hak
    · by_cases hv : v = unlistedCell <;> simp [setCell, hak, hv] at h ⊢ <;> tauto
    · by_cases hv : v = unlistedCell <;> simp [setCell, hv] at h ⊢ <;> tauto
    · simp only [setCell, if_neg (show ¬ a < k by omega), if_neg (show ¬ a = k by omega), List.mem_cons] at h ⊢
      rcases h with h | h
      · exact .inr (.inl h)
      · exact (ih h).imp id .inr

/-- A write keeps the canonical form. -/
theorem setCell_wf {m : Memory} {a : Nat} {v : Word} (ha : a < 8192) (h : m.wf = true) :
    Memory.wf (setCell m a v) = true := by
  induction m with
  | nil => by_cases hv : v = unlistedCell <;> simp [setCell, Memory.wf_iff, hv, ha]
  | cons c rest ih =>
    obtain ⟨k, x⟩ := c
    obtain ⟨hk, hk8, hx, hrest⟩ := Memory.wf_cons.mp h
    rcases lt_trichotomy a k with hak | rfl | hak
    · by_cases hv : v = unlistedCell
      · simpa [setCell, hak, hv] using h
      · simp only [setCell, hak, hv, if_true, if_false]
        refine Memory.wf_cons.mpr ⟨?_, ha, hv, h⟩
        intro d hd
        rcases List.mem_cons.mp hd with rfl | hd
        · exact hak
        · exact lt_trans hak (hk d hd)
    · by_cases hv : v = unlistedCell
      · simpa [setCell, hv] using hrest
      · simp only [setCell, lt_irrefl, hv, if_true, if_false]
        exact Memory.wf_cons.mpr ⟨hk, ha, hv, hrest⟩
    · simp only [setCell, if_neg (show ¬ a < k by omega), if_neg (show ¬ a = k by omega)]
      refine Memory.wf_cons.mpr ⟨?_, hk8, hx, ih hrest⟩
      intro d hd
      rcases mem_setCell hd with ⟨rfl, -⟩ | hd
      · exact hak
      · exact hk d hd

/-- MemWrite keeps the canonical form. -/
theorem Memory.write_wf {m : Memory} (a : Addr) (v : Word) (h : m.wf = true) : (m.write a v).wf = true :=
  setCell_wf a.isLt h

/-- Two memories in the canonical form that hold the same cells are the same list. -/
theorem Memory.ext_of_wf {m m' : Memory} (h : m.wf = true) (h' : m'.wf = true)
    (heq : ∀ a, cellAt m a = cellAt m' a) : m = m' := by
  induction m generalizing m' with
  | nil =>
    cases m' with
    | nil => rfl
    | cons d rest' =>
      have := heq d.1
      simp only [cellAt, if_true] at this
      exact absurd this.symm (Memory.wf_cons.mp h').2.2.1
  | cons c rest ih =>
    obtain ⟨hc, -, hcv, hrest⟩ := Memory.wf_cons.mp h
    cases m' with
    | nil =>
      have := heq c.1
      simp only [cellAt, if_true] at this
      exact absurd this hcv
    | cons d rest' =>
      obtain ⟨hd, -, hdv, hrest'⟩ := Memory.wf_cons.mp h'
      obtain ⟨k, x⟩ := c
      obtain ⟨k', x'⟩ := d
      have hk := heq k
      have hk' := heq k'
      simp only [cellAt, if_true] at hk hk'
      have hkk : k = k' := by
        rcases lt_trichotomy k k' with hlt | rfl | hlt
        · rw [if_neg (by omega), cellAt_of_below (fun e he => lt_trans hlt (hd e he))] at hk
          exact absurd hk hcv
        · rfl
        · rw [if_neg (by omega), cellAt_of_below (fun e he => lt_trans hlt (hc e he))] at hk'
          exact absurd hk'.symm hdv
      subst hkk
      rw [if_pos rfl] at hk
      subst hk
      congr 1
      refine ih hrest hrest' (fun a => ?_)
      by_cases ha : a = k
      · subst ha
        rw [cellAt_of_below hc, cellAt_of_below hd]
      · simpa [cellAt, Ne.symm ha] using heq a

end Sys2Proof.Machine
end

