-- ==== Sys2Proof/Laws/State.lean ====
section
/-! SUPPORT. What each update of the state does to each field: one lemma per field per update. -/

namespace Sys2Proof.Machine

variable (s : State)

@[simp] theorem State.writeReg_regs (i : RegIdx) (v : Word) : (s.writeReg i v).regs = writeRegs s.regs i v := rfl
@[simp] theorem State.writeReg_pc (i : RegIdx) (v : Word) : (s.writeReg i v).pc = s.pc := rfl
@[simp] theorem State.writeReg_mem (i : RegIdx) (v : Word) : (s.writeReg i v).mem = s.mem := rfl
@[simp] theorem State.writeReg_caches (i : RegIdx) (v : Word) : (s.writeReg i v).caches = s.caches := rfl
@[simp] theorem State.writeReg_halted (i : RegIdx) (v : Word) : (s.writeReg i v).halted = s.halted := rfl
@[simp] theorem State.writeReg_trace (i : RegIdx) (v : Word) : (s.writeReg i v).trace = s.trace := rfl

@[simp] theorem State.setPc_regs (v : Word) : (s.setPc v).regs = s.regs := rfl
@[simp] theorem State.setPc_pc (v : Word) : (s.setPc v).pc = v := rfl
@[simp] theorem State.setPc_mem (v : Word) : (s.setPc v).mem = s.mem := rfl
@[simp] theorem State.setPc_caches (v : Word) : (s.setPc v).caches = s.caches := rfl
@[simp] theorem State.setPc_halted (v : Word) : (s.setPc v).halted = s.halted := rfl
@[simp] theorem State.setPc_trace (v : Word) : (s.setPc v).trace = s.trace := rfl

@[simp] theorem State.writeMem_regs (a : Addr) (v : Word) : (s.writeMem a v).regs = s.regs := rfl
@[simp] theorem State.writeMem_pc (a : Addr) (v : Word) : (s.writeMem a v).pc = s.pc := rfl
@[simp] theorem State.writeMem_mem (a : Addr) (v : Word) : (s.writeMem a v).mem = s.mem.write a v := rfl
@[simp] theorem State.writeMem_caches (a : Addr) (v : Word) : (s.writeMem a v).caches = s.caches := rfl
@[simp] theorem State.writeMem_halted (a : Addr) (v : Word) : (s.writeMem a v).halted = s.halted := rfl
@[simp] theorem State.writeMem_trace (a : Addr) (v : Word) : (s.writeMem a v).trace = s.trace := rfl

@[simp] theorem State.cacheAccess_regs (k : AccessKind) (a : Addr) : (s.cacheAccess k a).regs = s.regs := rfl
@[simp] theorem State.cacheAccess_pc (k : AccessKind) (a : Addr) : (s.cacheAccess k a).pc = s.pc := rfl
@[simp] theorem State.cacheAccess_mem (k : AccessKind) (a : Addr) : (s.cacheAccess k a).mem = s.mem := rfl
@[simp] theorem State.cacheAccess_caches (k : AccessKind) (a : Addr) : (s.cacheAccess k a).caches = (s.caches.access k a s.pc).1 := rfl
@[simp] theorem State.cacheAccess_halted (k : AccessKind) (a : Addr) : (s.cacheAccess k a).halted = s.halted := rfl
@[simp] theorem State.cacheAccess_trace (k : AccessKind) (a : Addr) : (s.cacheAccess k a).trace = s.trace ++ (s.caches.access k a s.pc).2 := rfl

@[simp] theorem State.halt_regs : (s.halt).regs = s.regs := rfl
@[simp] theorem State.halt_pc : (s.halt).pc = s.pc := rfl
@[simp] theorem State.halt_mem : (s.halt).mem = s.mem := rfl
@[simp] theorem State.halt_caches : (s.halt).caches = s.caches := rfl
@[simp] theorem State.halt_halted : (s.halt).halted = true := rfl
@[simp] theorem State.halt_trace : (s.halt).trace = s.trace := rfl

@[simp] theorem State.advance_regs : (s.advance).regs = s.regs := rfl
@[simp] theorem State.advance_pc : (s.advance).pc = s.nextPc := rfl
@[simp] theorem State.advance_mem : (s.advance).mem = s.mem := rfl
@[simp] theorem State.advance_caches : (s.advance).caches = s.caches := rfl
@[simp] theorem State.advance_halted : (s.advance).halted = s.halted := rfl
@[simp] theorem State.advance_trace : (s.advance).trace = s.trace := rfl

@[simp] theorem State.writeAndAdvance_regs (i : RegIdx) (v : Word) : (s.writeAndAdvance i v).regs = writeRegs s.regs i v := rfl
@[simp] theorem State.writeAndAdvance_pc (i : RegIdx) (v : Word) : (s.writeAndAdvance i v).pc = s.pc + 1 := rfl
@[simp] theorem State.writeAndAdvance_mem (i : RegIdx) (v : Word) : (s.writeAndAdvance i v).mem = s.mem := rfl
@[simp] theorem State.writeAndAdvance_caches (i : RegIdx) (v : Word) : (s.writeAndAdvance i v).caches = s.caches := rfl
@[simp] theorem State.writeAndAdvance_halted (i : RegIdx) (v : Word) : (s.writeAndAdvance i v).halted = s.halted := rfl
@[simp] theorem State.writeAndAdvance_trace (i : RegIdx) (v : Word) : (s.writeAndAdvance i v).trace = s.trace := rfl

end Sys2Proof.Machine
end

