-- ==== Sys2Proof/Laws/Ops.lean ====
section
/-! SUPPORT. What a read sees after each shared operation on registers and memory. -/

namespace Sys2Proof.Machine

variable (s : State)

@[simp] theorem State.readReg_zero : s.readReg 0#3 = 0#16 := rfl

/-- A register's value depends on the register array alone. -/
theorem State.readReg_congr {s t : State} (h : s.regs = t.regs) (i : RegIdx) : s.readReg i = t.readReg i := by
  simp [State.readReg, h]

/-- A register read after x[i] <- v: the new value in i, unless i is 0; every other as before (R14). -/
theorem State.readReg_writeReg (i j : RegIdx) (v : Word) :
    (s.writeReg i v).readReg j = if j = i ∧ i ≠ 0 then v else s.readReg j := by
  by_cases hj : j = 0
  · subst hj
    rw [if_neg (fun h => h.2 h.1.symm)]
    rfl
  · by_cases hi : i = 0
    · simp [State.readReg, State.writeReg, writeRegs, hi]
    · have hidx : (i.toNat = j.toNat) ↔ j = i := ⟨fun h => (BitVec.eq_of_toNat_eq h).symm, fun h => h ▸ rfl⟩
      simp only [State.readReg, State.writeReg, writeRegs, if_neg hi, if_neg hj, Vector.getElem_set, hidx]
      by_cases hij : j = i
      · rw [if_pos hij, if_pos ⟨hij, hi⟩]
      · rw [if_neg hij, if_neg (fun h => hij h.1)]

@[simp] theorem State.readReg_setPc (v : Word) (i : RegIdx) : (s.setPc v).readReg i = s.readReg i := rfl
@[simp] theorem State.readReg_advance (i : RegIdx) : s.advance.readReg i = s.readReg i := rfl
@[simp] theorem State.readReg_writeMem (a : Addr) (v : Word) (i : RegIdx) :
    (s.writeMem a v).readReg i = s.readReg i := rfl
@[simp] theorem State.readReg_cacheAccess (k : AccessKind) (a : Addr) (i : RegIdx) :
    (s.cacheAccess k a).readReg i = s.readReg i := rfl
@[simp] theorem State.readReg_halt (i : RegIdx) : s.halt.readReg i = s.readReg i := rfl

@[simp] theorem State.readMem_setPc (v : Word) (a : Addr) : (s.setPc v).readMem a = s.readMem a := rfl
@[simp] theorem State.readMem_advance (a : Addr) : s.advance.readMem a = s.readMem a := rfl
@[simp] theorem State.readMem_writeReg (i : RegIdx) (v : Word) (a : Addr) :
    (s.writeReg i v).readMem a = s.readMem a := rfl
@[simp] theorem State.readMem_cacheAccess (k : AccessKind) (b a : Addr) :
    (s.cacheAccess k b).readMem a = s.readMem a := rfl
@[simp] theorem State.readMem_halt (a : Addr) : s.halt.readMem a = s.readMem a := rfl
@[simp] theorem State.readMem_writeAndAdvance (i : RegIdx) (v : Word) (a : Addr) :
    (s.writeAndAdvance i v).readMem a = s.readMem a := rfl

/-- MemWrite changes no other cell (R36). -/
theorem State.readMem_writeMem_ne {a b : Addr} (v : Word) (h : b ≠ a) : (s.writeMem a v).readMem b = s.readMem b :=
  cellAt_setCell_ne (fun hn => h (BitVec.eq_of_toNat_eq hn))

/-- The cell written holds the value, in a memory of the canonical form (R36). -/
theorem State.readMem_writeMem_self {s : State} (a : Addr) (v : Word) (h : s.mem.wf = true) :
    (s.writeMem a v).readMem a = v :=
  cellAt_setCell_self ((Memory.wf_iff _).mp h).1

/-- Register 0's slot keeps its value under every register write (R14). -/
theorem writeRegs_slot_zero (regs : Vector Word 8) (i : RegIdx) (v : Word) :
    (writeRegs regs i v)[0] = regs[0] := by
  unfold writeRegs
  split
  · rfl
  · rename_i h
    have : i.toNat ≠ 0 := fun hn => h (BitVec.eq_of_toNat_eq hn)
    simp [this]

end Sys2Proof.Machine
end

