-- ==== Sys2Proof/Laws/PerInstr.lean ====
section
/-! SUPPORT. Per-instruction lemmas about the instructions as syntax. OpcodeOfEncoding: the encoder writes the opcode that the opcode map (30_encoding.md R77) gives the instruction. -/

namespace Sys2Proof.Laws

/-- The opcode map of R77, from the instruction's side. -/
def opcodeOf (i : Instr) : Opcode :=
  match i with
  | .add _ _ _ | .sub _ _ _ | .or _ _ _ | .and _ _ _ | .slt _ _ _ | .jr _ | .undefined => 0b000
  | .addi _ _ _ => 0b001
  | .j _ => 0b010
  | .jal _ => 0b011
  | .lw _ _ _ => 0b100
  | .sw _ _ _ => 0b101
  | .jeq _ _ _ => 0b110
  | .slti _ _ _ => 0b111

/-- The encoder writes the instruction's opcode, whatever the function codes. -/
def OpcodeOfEncoding.Statement (i : Instr) : Prop :=
  ∀ fc : FuncCodes, opField (encodeWith fc i) = opcodeOf i

theorem OpcodeOfEncoding.add (rA rB rC : RegIdx) : OpcodeOfEncoding.Statement (.add rA rB rC) :=
  fun _ => opField_wordRRR _ _ _ _
theorem OpcodeOfEncoding.sub (rA rB rC : RegIdx) : OpcodeOfEncoding.Statement (.sub rA rB rC) :=
  fun _ => opField_wordRRR _ _ _ _
theorem OpcodeOfEncoding.or (rA rB rC : RegIdx) : OpcodeOfEncoding.Statement (.or rA rB rC) :=
  fun _ => opField_wordRRR _ _ _ _
theorem OpcodeOfEncoding.and (rA rB rC : RegIdx) : OpcodeOfEncoding.Statement (.and rA rB rC) :=
  fun _ => opField_wordRRR _ _ _ _
theorem OpcodeOfEncoding.slt (rA rB rC : RegIdx) : OpcodeOfEncoding.Statement (.slt rA rB rC) :=
  fun _ => opField_wordRRR _ _ _ _
theorem OpcodeOfEncoding.jr (rA : RegIdx) : OpcodeOfEncoding.Statement (.jr rA) :=
  fun _ => opField_wordRRR _ _ _ _
theorem OpcodeOfEncoding.addi (rA rB : RegIdx) (imm : Imm7) : OpcodeOfEncoding.Statement (.addi rA rB imm) :=
  fun _ => opField_wordRRI _ _ _ _
theorem OpcodeOfEncoding.j (imm : Imm13) : OpcodeOfEncoding.Statement (.j imm) :=
  fun _ => opField_wordI13 _ _
theorem OpcodeOfEncoding.jal (imm : Imm13) : OpcodeOfEncoding.Statement (.jal imm) :=
  fun _ => opField_wordI13 _ _
theorem OpcodeOfEncoding.lw (rA rB : RegIdx) (imm : Imm7) : OpcodeOfEncoding.Statement (.lw rA rB imm) :=
  fun _ => opField_wordRRI _ _ _ _
theorem OpcodeOfEncoding.sw (rA rB : RegIdx) (imm : Imm7) : OpcodeOfEncoding.Statement (.sw rA rB imm) :=
  fun _ => opField_wordRRI _ _ _ _
theorem OpcodeOfEncoding.jeq (rA rB : RegIdx) (imm : Imm7) : OpcodeOfEncoding.Statement (.jeq rA rB imm) :=
  fun _ => opField_wordRRI _ _ _ _
theorem OpcodeOfEncoding.slti (rA rB : RegIdx) (imm : Imm7) : OpcodeOfEncoding.Statement (.slti rA rB imm) :=
  fun _ => opField_wordRRI _ _ _ _
theorem OpcodeOfEncoding.undefined : OpcodeOfEncoding.Statement .undefined :=
  fun _ => opField_wordRRR _ _ _ _

end Sys2Proof.Laws
end

