-- ==== Sys2Proof/Laws/Step.lean ====
section
/-! SUPPORT. What a step can do, said once: the three ways of a step, and the five shapes of an instruction's next state. -/

namespace Sys2Proof.Machine

/-- The three ways of a step (R28): a halted core stops, the halt sentinel halts, any other word is decoded and run. -/
theorem stepWith_cases (p : Params) (s : State) :
    (s.halted = true ∧ stepWith p s = .fault .halted) ∨
    (s.halted = false ∧ isHalt p.haltHighPc s.fetch s.pc = true ∧ stepWith p s = .next s.halt) ∨
    (s.halted = false ∧ isHalt p.haltHighPc s.fetch s.pc = false ∧
      stepWith p s = exec (decodeWith p.funcCodes s.fetch) s) := by
  unfold stepWith
  cases hh : s.halted
  · cases hs : isHalt p.haltHighPc s.fetch s.pc
    · exact .inr (.inr ⟨rfl, rfl, rfl⟩)
    · exact .inr (.inl ⟨rfl, rfl, rfl⟩)
  · exact .inl ⟨rfl, rfl⟩

/-- The next state of an instruction has one of five shapes: a register written and the pc advanced; the same after a load's
cache access; a store; a pc set; the link register written and the pc set. -/
theorem exec_cases (i : Instr) (s : State) :
    (∃ d v, i.writes = some d ∧ (∀ rA rB imm, i ≠ .lw rA rB imm) ∧ (∀ imm, i ≠ .jal imm) ∧
      exec i s = .next (s.writeAndAdvance d v)) ∨
    (∃ rA rB imm, i = .lw rA rB imm ∧
      exec i s = .next ((s.cacheAccess .load (s.dataAddr rA imm)).writeAndAdvance rB (s.readMem (s.dataAddr rA imm)))) ∨
    (∃ rA rB imm, i = .sw rA rB imm ∧
      exec i s =
        .next ((s.cacheAccess .store (s.dataAddr rA imm)).writeMem (s.dataAddr rA imm) (s.readReg rB)).advance) ∨
    (∃ v, i.writes = none ∧ (∀ rA rB imm, i ≠ .sw rA rB imm) ∧ exec i s = .next (s.setPc v)) ∨
    (∃ imm, i = .jal imm ∧ exec i s = .next ((s.writeReg linkReg s.nextPc).setPc (zext16 imm))) := by
  cases i with
  | add rA rB rC => exact .inl ⟨rC, _, rfl, by simp, by simp, rfl⟩
  | sub rA rB rC => exact .inl ⟨rC, _, rfl, by simp, by simp, rfl⟩
  | or rA rB rC => exact .inl ⟨rC, _, rfl, by simp, by simp, rfl⟩
  | and rA rB rC => exact .inl ⟨rC, _, rfl, by simp, by simp, rfl⟩
  | slt rA rB rC => exact .inl ⟨rC, _, rfl, by simp, by simp, rfl⟩
  | addi rA rB imm => exact .inl ⟨rB, _, rfl, by simp, by simp, rfl⟩
  | slti rA rB imm => exact .inl ⟨rB, _, rfl, by simp, by simp, rfl⟩
  | lw rA rB imm => exact .inr (.inl ⟨rA, rB, imm, rfl, rfl⟩)
  | sw rA rB imm => exact .inr (.inr (.inl ⟨rA, rB, imm, rfl, rfl⟩))
  | jr rA => exact .inr (.inr (.inr (.inl ⟨_, rfl, by simp, rfl⟩)))
  | j imm => exact .inr (.inr (.inr (.inl ⟨_, rfl, by simp, rfl⟩)))
  | undefined => exact .inr (.inr (.inr (.inl ⟨s.nextPc, rfl, by simp, rfl⟩)))
  | jal imm => exact .inr (.inr (.inr (.inr ⟨imm, rfl, rfl⟩)))
  | jeq rA rB imm =>
    refine .inr (.inr (.inr (.inl ?_)))
    by_cases h : aluEq (s.readReg rA) (s.readReg rB) = true
    · exact ⟨_, rfl, by simp, by simp [exec, execJeq, h]; rfl⟩
    · exact ⟨s.nextPc, rfl, by simp, by simp [exec, execJeq, h, State.advance]⟩

end Sys2Proof.Machine
end

