-- ==== Sys2Proof/Tests/Slice0.lean ====
section
/-! SUPPORT. Tests: the checks of WellFormed, decoding of words written out from the spec, one-step vectors, cache vectors, and a witness for the hypotheses of every statement. Expected values are those of spec/95_test_vectors.md and of the rules' own examples, which the comments name. -/

namespace Sys2Proof.Tests

open Sys2Proof.Machine

/-! ## Helpers -/

/-- The reset state with some registers, a pc, cells, caches. -/
def st (regs : List (RegIdx × Word)) (pc : Word := 0) (mem : Memory := []) (caches : Hierarchy := .noCache) : State :=
  { regs.foldl (fun s r => s.writeReg r.1 r.2) State.reset with pc := pc, mem := mem, caches := caches }

/-- Register r and the pc after an instruction. -/
def after (o : Host.Outcome State Fault Refusal) (r : RegIdx) : Option (Word × Word) :=
  match o with
  | .next t => some (t.readReg r, t.pc)
  | .fault _ => none
  | .refused _ => none

/-- Cell a and the pc after an instruction. -/
def cellAfter (o : Host.Outcome State Fault Refusal) (a : Addr) : Option (Word × Word) :=
  match o with
  | .next t => some (t.readMem a, t.pc)
  | .fault _ => none
  | .refused _ => none

/-- The halted bit and the pc after a step. -/
def haltedAfter (o : Host.Outcome State Fault Refusal) : Option (Bool × Word) :=
  match o with
  | .next t => some (t.halted, t.pc)
  | .fault _ => none
  | .refused _ => none

/-- The records after a step. -/
def traceAfter (o : Host.Outcome State Fault Refusal) : Option (List Record) :=
  match o with
  | .next t => some t.trace
  | .fault _ => none
  | .refused _ => none

/-- The block ids of a row's slots, none for an empty one. -/
def blocks (row : List Slot) : List (Option Nat) :=
  row.map (fun x => match x with | .empty => none | .occupied b _ => some b)

/-- A level after loads (true) and stores (false) of addresses, first to last. -/
def played (t : Triple) (accesses : List (Bool × Addr)) : Cache :=
  (Cache.fresh t).after (accesses.reverse.map (fun e => (if e.1 then AccessKind.load else AccessKind.store, e.2)))

/-! ## The checks of WellFormed, with a term each refuses -/

theorem test_codes_default_distinct : FuncCodes.default.Distinct := by decide
theorem test_codes_repeated_refused : ¬ FuncCodes.Distinct { FuncCodes.default with jr := 4 } := by decide
-- section 2.11
theorem test_triple_legal : Triple.ofInts? 4 1 2 = some ⟨4, 1, 2⟩ := by decide
theorem test_triple_indivisible_refused : Triple.ofInts? 6 4 1 = none := by decide
theorem test_triple_zero_refused : Triple.ofInts? 0 1 1 = none ∧ Triple.ofInts? 4 0 1 = none := by decide
theorem test_triple_negative_refused : Triple.ofInts? 4 (-1) (-2) = none := by decide
theorem test_image_cell_bounds : ImageCellLegal (8191, 65535) ∧ ImageCellLegal (0, 0) := by decide
theorem test_image_cell_refused :
    ¬ ImageCellLegal (8192, 0) ∧ ¬ ImageCellLegal (-1, 0) ∧ ¬ ImageCellLegal (0, 65536) ∧ ¬ ImageCellLegal (0, -1) := by decide

/-! ## Decoding (words of section 2.1, and the bit patterns of R72 to R79) -/

theorem test_decode_add : decode 0b000_001_010_011_0000 = .add 1 2 3 := by decide
theorem test_decode_sub : decode 0b000_001_010_011_0001 = .sub 1 2 3 := by decide
theorem test_decode_or : decode 0b000_001_010_011_0010 = .or 1 2 3 := by decide
theorem test_decode_and : decode 0b000_001_010_011_0011 = .and 1 2 3 := by decide
theorem test_decode_slt : decode 0b000_001_010_011_0100 = .slt 1 2 3 := by decide
theorem test_decode_jr : decode 0x0408 = .jr 1 ∧ decode 0b000_111_111_111_1000 = .jr 7 := by decide
theorem test_decode_undefined : decode 0x0005 = .undefined ∧ decode 0x000F = .undefined ∧ decode 0x1C09 = .undefined := by decide
theorem test_decode_addi : decode 0x253F = .addi 1 2 63 ∧ decode 0b001_001_010_1000000 = .addi 1 2 64 := by decide
theorem test_decode_j : decode 0b010_0000001100100 = .j 100 ∧ decode 0x5FFF = .j 8191 := by decide
theorem test_decode_jal : decode 0x6000 = .jal 0 ∧ decode 0b011_0000001100100 = .jal 100 := by decide
theorem test_decode_lw : decode 0x8480 = .lw 1 1 0 ∧ decode 0b100_001_010_1111111 = .lw 1 2 127 := by decide
theorem test_decode_sw : decode 0b101_000_011_0000101 = .sw 0 3 5 := by decide
theorem test_decode_jeq : decode 0b110_001_010_1111111 = .jeq 1 2 127 := by decide
theorem test_decode_slti : decode 0b111_001_010_0000101 = .slti 1 2 5 ∧ decode 0xFFFF = .slti 7 7 127 := by decide
theorem test_decode_table_word : decodeTableWord 16 0x0531 = some (.sub 1 2 3) ∧ decodeTableWord 24 0 = none := by decide
theorem test_encode_words :
    encode (.add 1 2 3) = 0x0530 ∧ encode (.jr 7) = 0x1C08 ∧ encode (.j 100) = 0x4064 ∧ encode (.lw 1 2 127) = 0x857F ∧
      encode .undefined = 0x0005 := by decide
-- R86: nop is the word 0, halt at 6 the word 0x4006
theorem test_pseudo_words : encode .nop = 0 ∧ encode (.haltAt 6) = 0x4006 ∧ encode (.movi 1 3) = 0x2083 := by decide

/-! ## One step of each instruction (sections 2.3 to 2.9) -/

theorem test_add_wraps : after (exec (.add 1 2 3) (st [(1, 65535), (2, 1)] 65535)) 3 = some (0, 0) := by decide
theorem test_add_same_register : after (exec (.add 1 1 1) (st [(1, 40000)])) 1 = some (14464, 1) := by decide
theorem test_add_to_zero : after (exec (.add 1 2 0) (st [(1, 3), (2, 4)])) 0 = some (0, 1) := by decide
theorem test_sub_borrows : after (exec (.sub 1 2 3) (st [(1, 0x00FF), (2, 0xFF00)])) 3 = some (511, 1) := by decide
theorem test_or : after (exec (.or 1 2 3) (st [(1, 0xF0F0), (2, 0x0FF0)])) 3 = some (65520, 1) := by decide
theorem test_and : after (exec (.and 1 2 3) (st [(1, 0xF0F0), (2, 0x0FF0)])) 3 = some (240, 1) := by decide
theorem test_slt_unsigned : after (exec (.slt 1 2 4) (st [(1, 3), (2, 65534)])) 4 = some (1, 1) := by decide
theorem test_slt_equal : after (exec (.slt 1 2 3) (st [(1, 5), (2, 5), (3, 9)])) 3 = some (0, 1) := by decide
theorem test_addi_negative : after (exec (.addi 1 2 64) (st [(1, 10)])) 2 = some (65482, 1) := by decide
theorem test_addi_wraps : after (exec (.addi 1 2 127) (st [(1, 65535)])) 2 = some (65534, 1) := by decide
theorem test_slti_unsigned : after (exec (.slti 1 2 64) (st [(1, 65471)])) 2 = some (1, 1) := by decide
theorem test_slti_false : after (exec (.slti 1 2 64) (st [(1, 65472), (2, 7)])) 2 = some (0, 1) := by decide
theorem test_lw_negative_offset :
    after (exec (.lw 1 2 127) (st [(1, 65535)] 0 [(8190, 0x1234)])) 2 = some (0x1234, 1) := by decide
-- section 2.6: the record of an lw to r0 is still emitted
theorem test_lw_to_zero_emits :
    traceAfter (exec (.lw 0 0 3) (st [] 9 [(3, 77)] (.oneLevel (Cache.fresh ⟨4, 1, 1⟩)))) =
      some [⟨.l1, .miss, 9, 3, 3⟩] := by decide
theorem test_sw : cellAfter (exec (.sw 0 3 5) (st [(3, 42)])) 5 = some (42, 1) := by decide
theorem test_sw_wraps : cellAfter (exec (.sw 1 2 0) (st [(1, 65535), (2, 0x1234)])) 8191 = some (0x1234, 1) := by decide
theorem test_jr : after (exec (.jr 1) (st [(1, 65535)] 4)) 0 = some (0, 65535) := by decide
theorem test_jeq_taken : after (exec (.jeq 1 2 5) (st [(1, 8), (2, 8)] 10)) 0 = some (0, 16) := by decide
theorem test_jeq_wraps : after (exec (.jeq 0 0 64) (st [])) 0 = some (0, 65473) := by decide
theorem test_j : after (exec (.j 100) (st [] 7)) 0 = some (0, 100) := by decide
theorem test_jal_links : after (exec (.jal 100) (st [] 20)) 7 = some (21, 100) := by decide
theorem test_jal_link_wraps : after (exec (.jal 100) (st [] 65535)) 7 = some (0, 100) := by decide
theorem test_undefined : after (exec .undefined (st [(7, 9)] 65535)) 7 = some (9, 0) := by decide

/-! ## Halt and step (section 2.8) -/

theorem test_halt_sentinel : haltedAfter (Machine.step (st [] 6 [(6, 0x4006)])) = some (true, 6) := by decide
theorem test_jump_elsewhere : haltedAfter (Machine.step (st [] 6 [(6, 0x4007)])) = some (false, 7) := by decide
theorem test_halt_high_pc_no_match : haltedAfter (Machine.step (st [] 8194 [(2, 0x4002)])) = some (false, 2) := by decide
theorem test_halt_high_pc_low13 :
    haltedAfter (stepWith ⟨FuncCodes.default, .low13⟩ (st [] 8194 [(2, 0x4002)])) = some (true, 8194) := by decide
theorem test_jal_to_itself_is_no_halt : haltedAfter (Machine.step (st [] 5 [(5, 0x6005)])) = some (false, 5) := by decide
-- R107's example: the word 0x0005 at pc 2
theorem test_step_undefined : haltedAfter (Machine.step (st [] 2 [(2, 0x0005)])) = some (false, 3) := by decide
theorem test_placed_word_runs :
    after (Machine.step (State.reset.withFetchWord 16 0x2085)) 1 = some (5, 1) := by decide

/-! ## Cache vectors (section 2.10, 2.12) -/

-- section 2.10
theorem test_decomposition :
    (blockOf ⟨12, 3, 2⟩ 13, rowOf ⟨12, 3, 2⟩ 13, tagOf ⟨12, 3, 2⟩ 13) = (6, 0, 3) ∧
    (blockOf ⟨8, 2, 2⟩ 8190, rowOf ⟨8, 2, 2⟩ 8190, tagOf ⟨8, 2, 2⟩ 8190) = (4095, 1, 2047) := by decide
-- V-C1: after the load of 8, block 0 has been evicted, and a load of 0 misses
theorem test_vc1_evicts :
    blocks ((played ⟨8, 1, 2⟩ [(true, 0), (true, 1), (true, 0), (true, 8)]).row 0) = [some 4] ∧
    ((played ⟨8, 1, 2⟩ [(true, 0), (true, 1), (true, 0), (true, 8)]).access .load 0).1 = .miss := by decide
-- V-C2: A, B, A, C evicts B
theorem test_vc2_lru :
    blocks ((played ⟨4, 2, 1⟩ [(true, 0), (true, 2), (true, 0), (true, 4)]).row 0) = [some 0, some 4] ∧
    (played ⟨4, 2, 1⟩ [(true, 0), (true, 2), (true, 0), (true, 4)]).recency = [(0, 1), (4, 0)] := by decide
-- V-C3: the other row's accesses age this row's blocks
theorem test_vc3_global_recency :
    (played ⟨4, 2, 1⟩ [(true, 0), (true, 2), (true, 1), (true, 3), (true, 5), (true, 4)]).recency =
      [(2, 4), (3, 2), (4, 0), (5, 1)] := by decide
-- V-C4: a store makes a duplicate line, the tie evicts slot 0, an orphan is left and then hit
theorem test_vc4_orphan :
    blocks ((played ⟨4, 2, 1⟩ [(true, 0), (false, 0), (true, 2)]).row 0) = [some 2, some 0] ∧
    (played ⟨4, 2, 1⟩ [(true, 0), (false, 0), (true, 2)]).recency = [(2, 0)] ∧
    ((played ⟨4, 2, 1⟩ [(true, 0), (false, 0), (true, 2)]).access .load 0).1 = .hit := by decide
-- V-C5: the orphan is evicted first
theorem test_vc5_orphan_evicted :
    blocks ((played ⟨4, 2, 1⟩ [(true, 0), (false, 0), (true, 2), (true, 4)]).row 0) = [some 2, some 4] := by decide
-- V-C6: a store to a full row evicts as a load miss would
theorem test_vc6_store_evicts :
    blocks ((played ⟨4, 2, 1⟩ [(true, 0), (true, 2), (false, 4)]).row 0) = [some 4, some 2] := by decide
-- V-C7, third and fifth accesses: a load that misses L1 and hits L2, and a store
theorem test_vc7_records :
    ((Hierarchy.twoLevels (played ⟨2, 1, 1⟩ [(true, 5)]) (played ⟨8, 2, 2⟩ [(true, 5)])).access .load 4 2).2 =
      [⟨.l1, .miss, 2, 4, 0⟩, ⟨.l2, .hit, 2, 4, 0⟩] ∧
    ((Hierarchy.twoLevels (played ⟨2, 1, 1⟩ [(true, 5)]) (played ⟨8, 2, 2⟩ [(true, 5)])).access .store 5 4).2 =
      [⟨.l1, .sw, 4, 5, 1⟩, ⟨.l2, .sw, 4, 5, 0⟩] := by decide

/-! ## Configuration (section 2.11) -/

theorem test_configure_none : configure none = some .noCache := by decide
theorem test_configure_two_levels :
    (configure (some [4, 1, 2, 8, 2, 2])).map (fun h => h.config) = some [⟨4, 1, 2⟩, ⟨8, 2, 2⟩] := by decide
theorem test_configure_count_refused :
    configure (some [4, 1]) = none ∧ configure (some [4, 1, 2, 8, 2]) = none ∧ configure (some []) = none := by decide

/-! ## Witnesses: for each statement with hypotheses, values that meet them all -/

theorem witness_DecodeOfEncodeIsTheInstruction : FuncCodes.default.Distinct := by decide
theorem witness_EncodeOfDecodeKeepsEveryUsedBit : FuncCodes.default.Distinct := by decide
theorem witness_OpcodeMapIsTotal :
    (opField 0x0530 = 0b000 ∧ fnField 0x0530 ∈ FuncCodes.default.codes) ∧
    (opField 0x0005 = 0b000 ∧ fnField 0x0005 ∉ FuncCodes.default.codes) ∧
    opField 0x2000 = 0b001 ∧ opField 0x5FFF = 0b010 ∧ opField 0x6000 = 0b011 ∧ opField 0x8480 = 0b100 ∧
    opField 0xA185 = 0b101 ∧ opField 0xC57F = 0b110 ∧ opField 0xFFFF = 0b111 := by decide
theorem witness_JrIgnoresItsUnusedFields : FuncCodes.default.Distinct := by decide
theorem witness_AddWritesTheSumModulo65536 :
    FuncCodes.default.Distinct ∧ opField 0x0530 = 0b000 ∧ fnField 0x0530 = FuncCodes.default.add := by decide
theorem witness_SubWritesTheDifferenceModulo65536 :
    FuncCodes.default.Distinct ∧ opField 0x0531 = 0b000 ∧ fnField 0x0531 = FuncCodes.default.sub := by decide
theorem witness_OrWritesTheBitwiseOr :
    FuncCodes.default.Distinct ∧ opField 0x0532 = 0b000 ∧ fnField 0x0532 = FuncCodes.default.or := by decide
theorem witness_AndWritesTheBitwiseAnd :
    FuncCodes.default.Distinct ∧ opField 0x0533 = 0b000 ∧ fnField 0x0533 = FuncCodes.default.and := by decide
theorem witness_SltComparesUnsigned :
    FuncCodes.default.Distinct ∧ opField 0x0534 = 0b000 ∧ fnField 0x0534 = FuncCodes.default.slt := by decide
theorem witness_AddiAddsTheSignExtendedImmediate : opField 0x253F = 0b001 := by decide
theorem witness_SltiComparesUnsignedWithTheExtension : opField 0xE505 = 0b111 := by decide
theorem witness_LwLoadsTheCellAtTheEffectiveAddress : opField 0x857F = 0b100 := by decide
theorem witness_SwStoresAtTheEffectiveAddress :
    opField 0xA185 = 0b101 ∧ (st [(3, 42)] 0 [(5, 1)]).mem.wf = true := by decide
theorem witness_EffectiveAddressIsTheLow13BitsOfTheSum : (st [(1, 65535)]).mem.wf = true ∧ (2 : RegIdx) ≠ 0 := by decide
theorem witness_JrJumpsToTheFullRegister :
    FuncCodes.default.Distinct ∧ opField 0x1FF8 = 0b000 ∧ fnField 0x1FF8 = FuncCodes.default.jr := by decide
theorem witness_JeqBranchesRelativeToTheNextPc : opField 0xC57F = 0b110 := by decide
theorem witness_JumpsToTheImmediate : opField 0x4064 = 0b010 := by decide
theorem witness_JalLinksInRegister7 : opField 0x6064 = 0b011 := by decide
theorem witness_UndefinedOnlyAdvancesThePc :
    opField 0x000F = 0b000 ∧ fnField 0x000F ∉ FuncCodes.default.codes := by decide
theorem witness_EveryOtherInstructionGoesOnToTheNextPc :
    (∀ rA, Instr.jeq 1 2 5 ≠ .jr rA) ∧ (∀ imm, Instr.jeq 1 2 5 ≠ .j imm) ∧ (∀ imm, Instr.jeq 1 2 5 ≠ .jal imm) ∧
    ∀ rA rB imm, Instr.jeq 1 2 5 = .jeq rA rB imm → (st [(1, 8)]).readReg rA ≠ (st [(1, 8)]).readReg rB := by
  refine ⟨by simp, by simp, by simp, ?_⟩
  rintro _ _ _ ⟨⟩
  decide
theorem witness_HaltSentinelIsTheJumpToItself :
    (8191#16).toNat < 8192 ∧ 8192 ≤ (8192#16).toNat := by decide
theorem witness_HaltChangesOnlyTheHaltedBit :
    (st [] 0 [(0, 0x4000)]).halted = false ∧
    isHalt .noMatch (st [] 0 [(0, 0x4000)]).fetch (st [] 0 [(0, 0x4000)]).pc = true := by decide
theorem witness_OnlyTheSentinelHalts : ∃ t, stepWith Params.default (st [] 0 [(0, 0x4000)]) = .next t := ⟨_, rfl⟩
theorem witness_HaltedCoreHasNoStep : State.reset.halt.halted = true := by decide
theorem witness_StepRunsTheDecodedInstruction :
    State.reset.halted = false ∧ isHalt .noMatch State.reset.fetch State.reset.pc = false := by decide
theorem witness_PlacedWordIsTheNextInstruction :
    State.reset.mem.wf = true ∧ State.reset.halted = false ∧ decodeTableWord 16 0x6064 = some (.jal 100) ∧
    isHalt .noMatch (tableWord 16 0x6064) State.reset.pc = false := by decide
theorem witness_FetchReadsTheLow13BitsOfThePc : (57344#16).toNat % 8192 = State.reset.pc.toNat % 8192 := by decide
theorem witness_RegisterUsageIsTheTables :
    ((∃ t, exec (.add 1 2 3) (st [(1, 5)]) = .next t) ∧ (Instr.add 1 2 3).writes ≠ some 4) ∧
    (st [(1, 5)]).mem.wf = true ∧ (st [(1, 5), (6, 9)]).mem.wf = true ∧
    (∀ r ∈ (Instr.add 1 2 3).reads, (st [(1, 5)]).readReg r = (st [(1, 5), (6, 9)]).readReg r) ∧
    (st [(1, 5)]).pc = (st [(1, 5), (6, 9)]).pc ∧
    (∀ a, (st [(1, 5)]).readMem a = (st [(1, 5), (6, 9)]).readMem a) ∧
    (∃ t, exec (.add 1 2 3) (st [(1, 5), (6, 9)]) = .next t) ∧ (Instr.add 1 2 3).writes = some 3 :=
  ⟨⟨⟨_, rfl⟩, by decide⟩, by decide, by decide, by decide, by decide, fun _ => rfl, ⟨_, rfl⟩, by decide⟩
theorem witness_NothingFaults : State.reset.halted = false := by decide
/-- sw $0, 1($0) at pc 0, over a cell that holds 7: a step that changes memory. -/
theorem witness_OnlySwChangesMemory :
    (st [] 0 [(0, 0xA001), (1, 7)]).mem.wf = true ∧
    ∃ t, stepWith Params.default (st [] 0 [(0, 0xA001), (1, 7)]) = .next t ∧
      t.readMem 1 ≠ (st [] 0 [(0, 0xA001), (1, 7)]).readMem 1 :=
  ⟨by decide, _, rfl, by decide⟩
theorem witness_LoadReturnsTheLastStore :
    (st [] 0 [(0, 0xA001), (1, 7)]).mem.wf = true ∧
    (∃ t, runSteps Params.default 1 (st [] 0 [(0, 0xA001), (1, 7)]) = some t) ∧ (1 : RegIdx) ≠ 0 :=
  ⟨by decide, ⟨_, rfl⟩, by decide⟩
theorem witness_NextFetchSeesTheStore :
    (st [] 0 [(0, 0xA001), (1, 7)]).mem.wf = true ∧ (st [] 0 [(0, 0xA001), (1, 7)]).halted = false ∧
    isHalt .noMatch (st [] 0 [(0, 0xA001), (1, 7)]).fetch (st [] 0 [(0, 0xA001), (1, 7)]).pc = false ∧
    decodeWith FuncCodes.default (st [] 0 [(0, 0xA001), (1, 7)]).fetch = .sw 0 0 1 := by decide
theorem witness_CachesNeverChangeTheResult :
    (st [] 0 [(0, 0x8003)]).mem.wf = true ∧ (st [] 0 [(0, 0x8003)] (.oneLevel (Cache.fresh ⟨4, 1, 1⟩))).mem.wf = true ∧
    SameArchitecture (st [] 0 [(0, 0x8003)]) (st [] 0 [(0, 0x8003)] (.oneLevel (Cache.fresh ⟨4, 1, 1⟩))) ∧
    ∃ t, runSteps Params.default 1 (st [] 0 [(0, 0x8003)]) = some t :=
  ⟨by decide, by decide, ⟨fun _ => rfl, rfl, fun _ => rfl, rfl⟩, _, rfl⟩

/-- A two-way level of two rows, fresh. -/
theorem fresh_level_inv : (Cache.fresh ⟨4, 2, 1⟩).Inv := Cache.fresh_inv (by decide)

/-- A state with a two-way level that is about to run lw $1, 3($0). -/
def loading : State := st [] 0 [(0, 0x8083), (3, 77)] (.oneLevel (Cache.fresh ⟨4, 2, 1⟩))

theorem loading_inv : loading.Inv where
  regZero := by decide
  memory := by decide
  caches := by
    intro c hc
    obtain rfl : c = Cache.fresh ⟨4, 2, 1⟩ := by simpa [loading, st, Hierarchy.levels] using hc
    exact fresh_level_inv

theorem witness_EveryStepKeepsTheInvariant :
    loading.Inv ∧ (∃ t, Machine.step loading = .next t) ∧ ∃ t, stepWith Params.default loading = .next t :=
  ⟨loading_inv, ⟨_, rfl⟩, ⟨_, rfl⟩⟩
theorem witness_EveryBootIsInOrder : ∃ s, boot (some [4, 2, 1]) [(0, 0x8083), (3, 77)] = .next s := ⟨_, rfl⟩
theorem witness_NoStepChangesTheConfiguration :
    (∃ t, stepWith Params.default loading = .next t) ∧ loading.caches.config = [⟨4, 2, 1⟩] := ⟨⟨_, rfl⟩, by decide⟩
theorem witness_AddressDecompositionIsExact :
    Triple.Legal ⟨8, 2, 2⟩ ∧ rowOf ⟨8, 2, 2⟩ 8190 = rowOf ⟨8, 2, 2⟩ 2 := by decide
theorem witness_DirectMappedAccess :
    ((played ⟨4, 1, 1⟩ [(true, 5)]).cfg.assoc = 1 ∧
      ((played ⟨4, 1, 1⟩ [(true, 5)]).row (rowOf (played ⟨4, 1, 1⟩ [(true, 5)]).cfg 5)).length = 1 ∧
      ∃ tag, (played ⟨4, 1, 1⟩ [(true, 5)]).row (rowOf (played ⟨4, 1, 1⟩ [(true, 5)]).cfg 5) =
        [.occupied (blockOf (played ⟨4, 1, 1⟩ [(true, 5)]).cfg 5) tag]) ∧
    ((Cache.fresh ⟨4, 1, 1⟩).cfg.assoc = 1 ∧
      ((Cache.fresh ⟨4, 1, 1⟩).row (rowOf (Cache.fresh ⟨4, 1, 1⟩).cfg 5)).length = 1 ∧
      ¬ ∃ tag, (Cache.fresh ⟨4, 1, 1⟩).row (rowOf (Cache.fresh ⟨4, 1, 1⟩).cfg 5) =
        [.occupied (blockOf (Cache.fresh ⟨4, 1, 1⟩).cfg 5) tag]) :=
  ⟨⟨by decide, by decide, 1, by decide⟩, by decide, by decide, by
    rintro ⟨tag, h⟩
    exact absurd (congrArg List.head? h) (by simp [Cache.fresh, Cache.row, Triple.rowCount, rowOf, blockOf])⟩
theorem witness_SetAssociativeLoad :
    ((played ⟨4, 2, 1⟩ [(true, 0)]).cfg.assoc ≠ 1 ∧
      ∃ tag, Slot.occupied (blockOf (played ⟨4, 2, 1⟩ [(true, 0)]).cfg 0) tag ∈
        (played ⟨4, 2, 1⟩ [(true, 0)]).row (rowOf (played ⟨4, 2, 1⟩ [(true, 0)]).cfg 0)) ∧
    ((Cache.fresh ⟨4, 2, 1⟩).cfg.assoc ≠ 1 ∧
      ¬ ∃ tag, Slot.occupied (blockOf (Cache.fresh ⟨4, 2, 1⟩).cfg 0) tag ∈
        (Cache.fresh ⟨4, 2, 1⟩).row (rowOf (Cache.fresh ⟨4, 2, 1⟩).cfg 0)) :=
  ⟨⟨by decide, 0, by decide⟩, by decide, by
    rintro ⟨tag, h⟩
    simp [Cache.fresh, Cache.row, Triple.rowCount, rowOf, blockOf] at h⟩
theorem witness_PlaceFillsTheLowestEmptySlotOrTheVictims :
    (Cache.fresh ⟨4, 2, 1⟩).cfg.assoc ≠ 1 ∧
    ((played ⟨4, 2, 1⟩ [(true, 0)]).row 0 ≠ [] ∧ Slot.empty ∈ (played ⟨4, 2, 1⟩ [(true, 0)]).row 0) ∧
    ((played ⟨4, 2, 1⟩ [(true, 0), (true, 2)]).row 0 ≠ [] ∧
      Slot.empty ∉ (played ⟨4, 2, 1⟩ [(true, 0), (true, 2)]).row 0) := by decide
/-- A HIT; a MISS with an empty slot; and a MISS in the full row [0, 2], where the line of block 4 takes block 0's slot. -/
theorem witness_EveryAccessTouchesTheRecencyMap :
    ((played ⟨4, 2, 1⟩ [(true, 0), (true, 2)]).cfg.assoc ≠ 1 ∧
      ((played ⟨4, 2, 1⟩ [(true, 0), (true, 2)]).access .load 2).1 = .hit ∧ 0 ≠ blockOf ⟨4, 2, 1⟩ 2) ∧
    ((played ⟨4, 2, 1⟩ [(true, 0)]).cfg.assoc ≠ 1 ∧ Slot.empty ∈ (played ⟨4, 2, 1⟩ [(true, 0)]).row (rowOf ⟨4, 2, 1⟩ 2) ∧
      0 ≠ blockOf ⟨4, 2, 1⟩ 2) ∧
    ((played ⟨4, 2, 1⟩ [(true, 0), (true, 2)]).access .load 4).1 ≠ .hit ∧
    Slot.empty ∉ (played ⟨4, 2, 1⟩ [(true, 0), (true, 2)]).row (rowOf ⟨4, 2, 1⟩ 4) ∧
    (0 ≠ blockOf ⟨4, 2, 1⟩ 4 ∧ ((played ⟨4, 2, 1⟩ [(true, 0), (true, 2)]).row 0)[0]? = some (.occupied 0 0)) ∧
    2 ≠ blockOf ⟨4, 2, 1⟩ 4 ∧
    recFind ((played ⟨4, 2, 1⟩ [(true, 0), (true, 2)]).access .load 4).2.recency 0 = none ∧
    recFind ((played ⟨4, 2, 1⟩ [(true, 0), (true, 2)]).access .load 4).2.recency 2 = some 1 := by decide
theorem witness_CounterIsTheNumberOfAccessesSince :
    (⟨4, 2, 1⟩ : Triple).assoc ≠ 1 ∧
    recFind ((Cache.fresh ⟨4, 2, 1⟩).after [(.load, 2), (.store, 0)]).recency 0 = some 1 := by decide
theorem witness_DirectAndAssociativeAgreeOnOneSlot :
    ((Cache.fresh ⟨4, 1, 1⟩).row (rowOf (Cache.fresh ⟨4, 1, 1⟩).cfg 5)).length = 1 := by decide
theorem witness_LoadAfterAnAccessHits :
    (Cache.fresh ⟨8, 2, 2⟩).Inv ∧ blockOf (Cache.fresh ⟨8, 2, 2⟩).cfg 8191 = blockOf (Cache.fresh ⟨8, 2, 2⟩).cfg 8190 :=
  ⟨Cache.fresh_inv (by decide), by decide⟩
theorem witness_OccupiedSlotsStayOccupied :
    ((played ⟨4, 2, 1⟩ [(true, 0)]).row 0)[0]? = some (.occupied 0 0) := by decide
theorem witness_LoadConsultsL2OnlyOnAnL1Miss :
    ((played ⟨2, 1, 1⟩ [(true, 5)]).access .load 5).1 = .hit ∧ ((Cache.fresh ⟨2, 1, 1⟩).access .load 5).1 = .miss := by decide
theorem witness_RecordsOfEachInstruction :
    (∃ t, exec (.j 3) loading = .next t) ∧ (∃ t, exec (.sw 0 3 5) loading = .next t) ∧
    (∃ t, exec (.lw 0 1 3) loading = .next t) ∧ (∀ rA rB imm, Instr.j 3 ≠ .lw rA rB imm) ∧
    (∀ rA rB imm, Instr.j 3 ≠ .sw rA rB imm) :=
  ⟨⟨_, rfl⟩, ⟨_, rfl⟩, ⟨_, rfl⟩, by simp, by simp⟩
theorem witness_StepReportHoldsTheRecordsOfTheStep : ∃ t, stepWith Params.default loading = .next t := ⟨_, rfl⟩
theorem witness_ConfigurationIsRefusedExactlyWhenIllegal :
    (∃ s, boot none [] = .next s) ∧ ([4, 1] : List Int).length ≠ 3 ∧ ([4, 1] : List Int).length ≠ 6 :=
  ⟨⟨_, rfl⟩, by decide, by decide⟩
theorem witness_ImageIsLoadedOrRefused :
    boot (some [4, 2, 1]) [(8192, 0)] ≠ .refused .configError ∧
    (∃ cell ∈ ([(8192, 0)] : List (Int × Int)), ¬ ImageCellLegal cell) ∧
    boot (some [4, 1, 2, 8, 2, 1]) [(0, 65535), (8191, 7)] ≠ .refused .configError ∧
    (∀ cell ∈ ([(0, 65535), (8191, 7)] : List (Int × Int)), ImageCellLegal cell) :=
  ⟨by rintro ⟨⟩, by decide, by rintro ⟨⟩, by decide⟩
theorem witness_BootLeavesTheResetValues :
    (∃ s, boot none [(0, 5)] = .next s) ∧ (∃ s, boot (some [4, 2, 1]) [(0, 5)] = .next s) ∧
    ∃ s, boot (some [4, 1, 2, 8, 2, 1]) [(0, 5)] = .next s := ⟨⟨_, rfl⟩, ⟨_, rfl⟩, ⟨_, rfl⟩⟩
theorem witness_ReadoutGivesTheFinalState :
    (st [] 6 [(6, 0x4006)]).halted = false ∧
    isHalt .noMatch (st [] 6 [(6, 0x4006)]).fetch (st [] 6 [(6, 0x4006)]).pc = true := by decide

end Sys2Proof.Tests
end

section
/-! SUPPORT. What a read sees after the operations that change it: registers, memory, fetch. -/

namespace Sys2Proof.Machine

variable (s : State)

/-- A register just written reads as the value, unless it is register 0 (R13, R14). -/
theorem State.readReg_writeReg_self (i : RegIdx) (v : Word) :
    (s.writeReg i v).readReg i = if i = 0 then 0 else v := by
  rw [State.readReg_writeReg]
  by_cases hi : i = 0
  · rw [if_neg (fun h => h.2 hi), if_pos hi, hi]
    exact s.readReg_zero
  · rw [if_pos ⟨rfl, hi⟩, if_neg hi]

/-- A write to one register does not change another (R14). -/
theorem State.readReg_writeReg_ne {i j : RegIdx} (v : Word) (h : j ≠ i) :
    (s.writeReg i v).readReg j = s.readReg j := by
  rw [State.readReg_writeReg, if_neg (fun hj => h hj.1)]

@[simp] theorem State.readReg_writeAndAdvance (i : RegIdx) (v : Word) (j : RegIdx) :
    (s.writeAndAdvance i v).readReg j = (s.writeReg i v).readReg j := rfl

/-- A cell read after MemWrite(a, 1, v), in a memory of the canonical form (R36). -/
theorem State.readMem_writeMem {s : State} (a b : Addr) (v : Word) (h : s.mem.wf = true) :
    (s.writeMem a v).readMem b = if b = a then v else s.readMem b := by
  by_cases hb : b = a
  · rw [if_pos hb, hb, State.readMem_writeMem_self a v h]
  · rw [if_neg hb, State.readMem_writeMem_ne s v hb]

theorem low13_eq_ofNat (v : Word) : low13 v = BitVec.ofNat 13 (v.toNat % 8192) := by
  apply BitVec.eq_of_toNat_eq
  simp [low13]

/-- Two words that agree modulo 8192 have the same low 13 bits (R10). -/
theorem low13_congr {v w : Word} (h : v.toNat % 8192 = w.toNat % 8192) : low13 v = low13 w := by
  rw [low13_eq_ofNat, low13_eq_ofNat, h]

end Sys2Proof.Machine
end

section
/-! SUPPORT. What every instruction leaves: the halted bit, and the registers its row of R16's table does not name as written. -/

namespace Sys2Proof.Machine

variable {i : Instr} {s t : State}

/-- No instruction changes the halted bit: only the step's sentinel test sets it (R28, R105). -/
theorem exec_halted (h : exec i s = .next t) : t.halted = s.halted := by
  rcases exec_cases i s with ⟨_, _, _, _, _, he⟩ | ⟨_, _, _, _, he⟩ | ⟨_, _, _, _, he⟩ | ⟨_, _, _, he⟩ | ⟨_, _, he⟩
  all_goals
    cases he.symm.trans h
    rfl

/-- R16, the write column: a register the instruction does not name as written reads as before. -/
theorem exec_readReg_of_not_written (h : exec i s = .next t) {r : RegIdx} (hr : i.writes ≠ some r) :
    t.readReg r = s.readReg r := by
  rcases exec_cases i s with ⟨d, v, hd, _, _, he⟩ | ⟨rA, rB, imm, rfl, he⟩ | ⟨_, _, _, _, he⟩ | ⟨_, _, _, he⟩ |
    ⟨imm, rfl, he⟩
  all_goals cases he.symm.trans h
  case inl =>
    exact s.readReg_writeReg_ne v fun hrd => hr (hd.trans (congrArg some hrd.symm))
  case inr.inl =>
    exact (s.cacheAccess .load _).readReg_writeReg_ne _ fun hrd => hr (congrArg some hrd.symm)
  case inr.inr.inl => rfl
  case inr.inr.inr.inl => rfl
  case inr.inr.inr.inr =>
    exact s.readReg_writeReg_ne s.nextPc fun hrd => hr (congrArg some hrd.symm)

end Sys2Proof.Machine
end

section
/-! SUPPORT. Noninterference of the registers an instruction does not read (R16): a relation on two states, kept by every state
operation whose operands are the same in both, and so by every instruction. -/

namespace Sys2Proof.Machine

/-- Two states agree on the pc, on every memory cell, and on the one register `d` names, if it names one. -/
structure AgreeOn (d : Option RegIdx) (s s' : State) : Prop where
  pc  : s.pc = s'.pc
  mem : ∀ a, s.readMem a = s'.readMem a
  reg : ∀ r, d = some r → s.readReg r = s'.readReg r

variable {d : Option RegIdx} {s s' : State} {v v' : Word}

theorem AgreeOn.setPc (h : AgreeOn d s s') (hv : v = v') : AgreeOn d (s.setPc v) (s'.setPc v') where
  pc  := hv
  mem := h.mem
  reg := h.reg

theorem AgreeOn.nextPc (h : AgreeOn d s s') : s.nextPc = s'.nextPc := congrArg (· + 1) h.pc

theorem AgreeOn.advance (h : AgreeOn d s s') : AgreeOn d s.advance s'.advance := h.setPc h.nextPc

/-- The same value written to one register: the two states come to agree on it, whatever it held. -/
theorem AgreeOn.writeReg (h : AgreeOn none s s') (i : RegIdx) (hv : v = v') :
    AgreeOn (some i) (s.writeReg i v) (s'.writeReg i v') where
  pc  := h.pc
  mem := h.mem
  reg := by
    rintro _ ⟨rfl⟩
    rw [State.readReg_writeReg_self, State.readReg_writeReg_self, hv]

theorem AgreeOn.writeAndAdvance (h : AgreeOn none s s') (i : RegIdx) (hv : v = v') :
    AgreeOn (some i) (s.writeAndAdvance i v) (s'.writeAndAdvance i v') := (h.writeReg i hv).advance

/-- A cache access is seen by no register, pc or cell, whatever the two hierarchies hold (R31). -/
theorem AgreeOn.cacheAccess (h : AgreeOn d s s') (kind : AccessKind) (a a' : Addr) :
    AgreeOn d (s.cacheAccess kind a) (s'.cacheAccess kind a') where
  pc  := h.pc
  mem := h.mem
  reg := h.reg

theorem AgreeOn.writeMem (h : AgreeOn d s s') (hs : s.mem.wf = true) (hs' : s'.mem.wf = true) {a a' : Addr}
    (ha : a = a') (hv : v = v') : AgreeOn d (s.writeMem a v) (s'.writeMem a' v') where
  pc  := h.pc
  mem := fun b => by
    rw [State.readMem_writeMem a b v hs, State.readMem_writeMem a' b v' hs', ha, hv, h.mem b]
  reg := h.reg

/-- Agreement on the two registers an instruction reads, one at a time. -/
theorem readReg_eq_of_pair {rA rB : RegIdx} (h : ∀ r ∈ [rA, rB], s.readReg r = s'.readReg r) :
    s.readReg rA = s'.readReg rA ∧ s.readReg rB = s'.readReg rB :=
  ⟨h rA List.mem_cons_self, h rB (List.mem_cons_of_mem _ List.mem_cons_self)⟩

/-- The effective address depends on the base register alone (R34). -/
theorem State.dataAddr_congr {rA : RegIdx} (h : s.readReg rA = s'.readReg rA) (imm : Imm7) :
    s.dataAddr rA imm = s'.dataAddr rA imm := congrArg (effectiveAddr · imm) h

/-- jeq as one pc write: the target where the registers are equal, else the sequential pc (R101). -/
theorem exec_jeq (rA rB : RegIdx) (imm : Imm7) (s : State) :
    exec (.jeq rA rB imm) s =
      .next (s.setPc (if aluEq (s.readReg rA) (s.readReg rB) then s.nextPc + sext16 imm else s.nextPc)) := by
  simp only [exec, execJeq, State.advance, ← apply_ite s.setPc]

/-- R16, the read column: from two states that agree on the registers an instruction reads, the pc and memory, it leads to two
that agree on the pc, memory and the register it writes. -/
theorem exec_agreeOn (i : Instr) (hs : s.mem.wf = true) (hs' : s'.mem.wf = true)
    (hreads : ∀ r ∈ i.reads, s.readReg r = s'.readReg r) (h : AgreeOn none s s') :
    ∃ t t', exec i s = .next t ∧ exec i s' = .next t' ∧ AgreeOn i.writes t t' := by
  cases i with
  | add rA rB rC =>
    obtain ⟨hA, hB⟩ := readReg_eq_of_pair hreads
    exact ⟨_, _, rfl, rfl, h.writeAndAdvance rC (congrArg₂ aluAdd hA hB)⟩
  | sub rA rB rC =>
    obtain ⟨hA, hB⟩ := readReg_eq_of_pair hreads
    exact ⟨_, _, rfl, rfl, h.writeAndAdvance rC (congrArg₂ aluSub hA hB)⟩
  | or rA rB rC =>
    obtain ⟨hA, hB⟩ := readReg_eq_of_pair hreads
    exact ⟨_, _, rfl, rfl, h.writeAndAdvance rC (congrArg₂ aluOr hA hB)⟩
  | and rA rB rC =>
    obtain ⟨hA, hB⟩ := readReg_eq_of_pair hreads
    exact ⟨_, _, rfl, rfl, h.writeAndAdvance rC (congrArg₂ aluAnd hA hB)⟩
  | slt rA rB rC =>
    obtain ⟨hA, hB⟩ := readReg_eq_of_pair hreads
    exact ⟨_, _, rfl, rfl, h.writeAndAdvance rC (congrArg₂ aluLtu hA hB)⟩
  | addi rA rB imm =>
    have hA := List.forall_mem_singleton.mp hreads
    exact ⟨_, _, rfl, rfl, h.writeAndAdvance rB (congrArg (aluAdd · (sext16 imm)) hA)⟩
  | slti rA rB imm =>
    have hA := List.forall_mem_singleton.mp hreads
    exact ⟨_, _, rfl, rfl, h.writeAndAdvance rB (congrArg (aluLtu · (sext16 imm)) hA)⟩
  | lw rA rB imm =>
    have hA := List.forall_mem_singleton.mp hreads
    have hval : s.readMem (s.dataAddr rA imm) = s'.readMem (s'.dataAddr rA imm) := by
      rw [State.dataAddr_congr hA, h.mem]
    exact ⟨_, _, rfl, rfl, (h.cacheAccess .load _ _).writeAndAdvance rB hval⟩
  | sw rA rB imm =>
    obtain ⟨hA, hB⟩ := readReg_eq_of_pair hreads
    exact ⟨_, _, rfl, rfl,
      ((h.cacheAccess .store _ _).writeMem hs hs' (State.dataAddr_congr hA imm) hB).advance⟩
  | jr rA =>
    have hA := List.forall_mem_singleton.mp hreads
    exact ⟨_, _, rfl, rfl, h.setPc hA⟩
  | jeq rA rB imm =>
    obtain ⟨hA, hB⟩ := readReg_eq_of_pair hreads
    exact ⟨_, _, exec_jeq rA rB imm s, exec_jeq rA rB imm s', h.setPc (by rw [hA, hB, h.nextPc])⟩
  | j imm => exact ⟨_, _, rfl, rfl, h.setPc rfl⟩
  | jal imm => exact ⟨_, _, rfl, rfl, (h.writeReg linkReg h.nextPc).setPc rfl⟩
  | undefined => exact ⟨_, _, rfl, rfl, h.advance⟩

end Sys2Proof.Machine
end

section
/-! SUPPORT. What an accepted boot gives: the triples of its integers, the hierarchy of its configuration, and the rest of the
state at reset. -/

namespace Sys2Proof.Machine

open Sys2Proof.Claims

/-- Three integers that give a triple give a legal one, of exactly those integers (R48, R112). -/
theorem Triple.ofInts?_eq_some {x y z : Int} {t : Triple} (h : Triple.ofInts? x y z = some t) :
    t.Legal ∧ (t.size : Int) = x ∧ (t.assoc : Int) = y ∧ (t.blockSize : Int) = z := by
  unfold Triple.ofInts? at h
  split at h
  case isFalse => cases h
  case isTrue hpos =>
    simp only [Option.ite_none_right_eq_some, Option.some.injEq] at h
    obtain ⟨hlegal, rfl⟩ := h
    refine ⟨hlegal, ?_, ?_, ?_⟩ <;> simp only [Int.ofNat_toNat] <;> omega

/-- The three configurations that configure accepts, with the hierarchy each gives (R112). -/
theorem configure_cases {config : Option (List Int)} {hier : Hierarchy} (h : configure config = some hier) :
    (config = none ∧ hier = .noCache) ∨
    (∃ x y z t, config = some [x, y, z] ∧ Triple.ofInts? x y z = some t ∧ hier = .oneLevel (Cache.fresh t)) ∨
    (∃ x y z x' y' z' t t', config = some [x, y, z, x', y', z'] ∧ Triple.ofInts? x y z = some t ∧
      Triple.ofInts? x' y' z' = some t' ∧ hier = .twoLevels (Cache.fresh t) (Cache.fresh t')) := by
  unfold configure at h
  split at h
  case h_1 =>
    cases h
    exact .inl ⟨rfl, rfl⟩
  case h_2 x y z =>
    obtain ⟨t, ht, rfl⟩ := Option.map_eq_some_iff.mp h
    exact .inr (.inl ⟨x, y, z, t, rfl, ht, rfl⟩)
  case h_3 x y z x' y' z' =>
    split at h
    case h_1 t t' ht ht' =>
      cases h
      exact .inr (.inr ⟨x, y, z, x', y', z', t, t', rfl, ht, ht', rfl⟩)
    case h_2 => cases h
  case h_4 => cases h

/-- An accepted boot is the reset state with the configuration's hierarchy and the image's memory (R126). -/
theorem boot_eq_next {config : Option (List Int)} {image : List (Int × Int)} {s : State}
    (h : boot config image = .next s) :
    ∃ hier m, configure config = some hier ∧ loadImage image = some m ∧
      s = { State.reset with mem := m, caches := hier } := by
  unfold boot at h
  split at h
  case h_1 => cases h
  case h_2 hier hc =>
    split at h
    case h_1 => cases h
    case h_2 m hm =>
      cases h
      exact ⟨hier, m, hc, hm, rfl⟩

/-- Every register reads 0 at reset (R121). -/
theorem State.readReg_reset (r : RegIdx) : State.reset.readReg r = 0 := by
  simp [State.readReg, State.reset]

/-- The level created from three integers has their triple (R23). -/
theorem Cache.fresh_configuredAs {x y z : Int} {t : Triple} (h : Triple.ofInts? x y z = some t) :
    ConfiguredAs (Cache.fresh t) x y z := (Triple.ofInts?_eq_some h).2

/-- A level with no recency entry, and its rows of slots all empty (R124). -/
def Cache.IsEmpty (c : Cache) : Prop :=
  c.recency = [] ∧ c.rows.length = c.cfg.rowCount ∧
    ∀ row ∈ c.rows, row.length = c.cfg.assoc ∧ ∀ x ∈ row, x = .empty

theorem Cache.fresh_isEmpty (t : Triple) : (Cache.fresh t).IsEmpty := by
  refine ⟨rfl, List.length_replicate, fun row hrow => ?_⟩
  obtain rfl := List.eq_of_mem_replicate hrow
  exact ⟨List.length_replicate, fun x hx => List.eq_of_mem_replicate hx⟩

/-- Every level of a configured hierarchy is empty (R124). -/
theorem configure_levels_isEmpty {config : Option (List Int)} {hier : Hierarchy} (h : configure config = some hier) :
    ∀ c ∈ hier.levels, c.IsEmpty := by
  rcases configure_cases h with ⟨-, rfl⟩ | ⟨_, _, _, t, -, -, rfl⟩ | ⟨_, _, _, _, _, _, t, t', -, -, -, rfl⟩
  · exact fun c hc => (List.not_mem_nil hc).elim
  · exact List.forall_mem_singleton.mpr (Cache.fresh_isEmpty t)
  · exact List.forall_mem_cons.mpr
      ⟨Cache.fresh_isEmpty t, List.forall_mem_singleton.mpr (Cache.fresh_isEmpty t')⟩

end Sys2Proof.Machine
end

section
/-! The statements of 10_state.md. -/

namespace Sys2Proof.Proofs

open Sys2Proof.Machine Sys2Proof.Claims

/-- Settles O26, by the three ways of a step: an instruction keeps the halted bit, which is false where one is executed. -/
theorem onlyTheSentinelHalts : Obligations.OnlyTheSentinelHalts := by
  intro p s t h
  rcases stepWith_cases p s with ⟨_, he⟩ | ⟨_, hsent, he⟩ | ⟨hrun, hsent, he⟩
  case inl => cases he.symm.trans h
  case inr.inl =>
    cases he.symm.trans h
    exact iff_of_true s.halt_halted hsent
  case inr.inr =>
    rw [exec_halted (he.symm.trans h), hrun, hsent]

/-- Settles O32: the write column by the shapes of a next state, the read column by the relation every operation keeps. -/
theorem registerUsageIsTheTables : Obligations.RegisterUsageIsTheTables := by
  refine ⟨fun i s t h r hr => exec_readReg_of_not_written h hr, ?_⟩
  intro i s s' t t' hs hs' hreads hpc hmem h h'
  obtain ⟨u, u', hu, hu', hagree⟩ := exec_agreeOn i hs hs' hreads ⟨hpc, hmem, by simp⟩
  cases hu.symm.trans h
  cases hu'.symm.trans h'
  exact ⟨hagree.pc, hagree.mem, hagree.reg⟩

/-- Settles O57, by the three configurations a boot accepts. -/
theorem bootLeavesTheResetValues : Obligations.BootLeavesTheResetValues := by
  intro config image s h
  obtain ⟨hier, m, hc, -, rfl⟩ := boot_eq_next h
  refine ⟨State.readReg_reset, rfl, rfl, rfl, ?_, ?_, ?_, configure_levels_isEmpty hc⟩
  · rintro rfl
    cases hc
    rfl
  · rintro x y z rfl
    obtain ⟨t, ht, rfl⟩ := Option.map_eq_some_iff.mp hc
    exact ⟨_, rfl, Cache.fresh_configuredAs ht⟩
  · rintro x y z x' y' z' rfl
    rcases configure_cases hc with ⟨⟨⟩, -⟩ | ⟨_, _, _, _, ⟨⟩, -⟩ | ⟨_, _, _, _, _, _, t, t', ⟨⟩, ht, ht', rfl⟩
    exact ⟨_, _, rfl, Cache.fresh_configuredAs ht, Cache.fresh_configuredAs ht'⟩

/-- Settles O30: the fetch address is a function of the pc modulo 8192. -/
theorem fetchReadsTheLow13BitsOfThePc : Obligations.FetchReadsTheLow13BitsOfThePc := by
  intro s
  refine ⟨congrArg s.readMem (low13_eq_ofNat s.pc), fun v hv => ⟨?_, s.setPc_pc v⟩⟩
  exact congrArg s.readMem (low13_congr hv)

/-- Settles O31, by the rule for a register read after a write. -/
theorem registerZeroReadsAsZero : Obligations.RegisterZeroReadsAsZero := by
  intro s
  refine ⟨s.readReg_zero, fun v r => ?_⟩
  rw [State.readReg_writeReg, if_neg (fun h => h.2 rfl)]

end Sys2Proof.Proofs
end

section
/-! SUPPORT. The stores of a step and of a run: a cell holds what the last store to it stored, or else what it held at the start
(R37, R43). -/

namespace Sys2Proof.Machine

variable {p : Params} {i : Instr} {s t : State} {a : Addr} {v : Word} {n : Nat}

/-- The value that a store, if there is one, puts into cell a. -/
def storedIn (store : Option (Addr × Word)) (a : Addr) : Option Word :=
  match store with
  | some (b, v) => if b = a then some v else none
  | none => none

@[simp] theorem storedIn_none (a : Addr) : storedIn none a = none := rfl
@[simp] theorem storedIn_some (b a : Addr) (v : Word) :
    storedIn (some (b, v)) a = if b = a then some v else none := rfl

theorem storedIn_eq_some {store : Option (Addr × Word)} : storedIn store a = some v ↔ store = some (a, v) := by
  cases store with
  | none => simp
  | some e =>
    obtain ⟨b, w⟩ := e
    simp

/-- Only an sw stores (R37). -/
theorem storeOfInstr_eq_some {b : Addr} (h : storeOfInstr i s = some (b, v)) :
    ∃ rA rB imm, i = .sw rA rB imm ∧ b = s.dataAddr rA imm ∧ v = s.readReg rB := by
  cases i with
  | sw rA rB imm =>
    cases h
    exact ⟨rA, rB, imm, rfl, rfl, rfl⟩
  | _ => cases h

theorem storeOfInstr_of_not_sw (h : ∀ rA rB imm, i ≠ .sw rA rB imm) : storeOfInstr i s = none := by
  by_contra hsome
  obtain ⟨⟨b, v⟩, he⟩ := Option.ne_none_iff_exists'.mp hsome
  obtain ⟨rA, rB, imm, hi, -⟩ := storeOfInstr_eq_some he
  exact h rA rB imm hi

/-- What an instruction does to memory: nothing, or the one write of its store. -/
theorem exec_mem_cases (h : exec i s = .next t) :
    (storeOfInstr i s = none ∧ t.mem = s.mem) ∨
    ∃ b v, storeOfInstr i s = some (b, v) ∧ t.mem = s.mem.write b v := by
  rcases exec_cases i s with ⟨d, v, hd, _, _, he⟩ | ⟨rA, rB, imm, rfl, he⟩ | ⟨rA, rB, imm, rfl, he⟩ |
    ⟨v, _, hsw, he⟩ | ⟨imm, rfl, he⟩
  all_goals cases he.symm.trans h
  case inl =>
    refine .inl ⟨storeOfInstr_of_not_sw ?_, rfl⟩
    rintro rA rB imm rfl
    cases hd
  case inr.inl => exact .inl ⟨rfl, rfl⟩
  case inr.inr.inl => exact .inr ⟨_, _, rfl, rfl⟩
  case inr.inr.inr.inl => exact .inl ⟨storeOfInstr_of_not_sw hsw, rfl⟩
  case inr.inr.inr.inr => exact .inl ⟨rfl, rfl⟩

/-- What a step stores is what the instruction it executes stores; a halting step executes none. -/
theorem storeOf_eq_some {b : Addr} (h : storeOf p s = some (b, v)) :
    isHalt p.haltHighPc s.fetch s.pc = false ∧ storeOfInstr (decodeWith p.funcCodes s.fetch) s = some (b, v) := by
  unfold storeOf at h
  split at h
  case isTrue => cases h
  case isFalse =>
    split at h
    case isTrue => cases h
    case isFalse hsent => exact ⟨by simpa using hsent, h⟩

/-- What a step does to memory: nothing, or the one write of its store (R37). -/
theorem stepWith_mem_cases (h : stepWith p s = .next t) :
    (storeOf p s = none ∧ t.mem = s.mem) ∨ ∃ b v, storeOf p s = some (b, v) ∧ t.mem = s.mem.write b v := by
  rcases stepWith_cases p s with ⟨_, he⟩ | ⟨hrun, hsent, he⟩ | ⟨hrun, hsent, he⟩
  case inl => cases he.symm.trans h
  case inr.inl =>
    cases he.symm.trans h
    exact .inl ⟨by simp [storeOf, hrun, hsent], rfl⟩
  case inr.inr =>
    have hstore : storeOf p s = storeOfInstr (decodeWith p.funcCodes s.fetch) s := by simp [storeOf, hrun, hsent]
    rw [hstore]
    exact exec_mem_cases (he.symm.trans h)

theorem stepWith_mem_wf (hs : s.mem.wf = true) (h : stepWith p s = .next t) : t.mem.wf = true := by
  rcases stepWith_mem_cases h with ⟨-, hmem⟩ | ⟨b, v, -, hmem⟩
  · rwa [hmem]
  · rw [hmem]
    exact Memory.write_wf b v hs

/-- A cell after a step: what the step stored there, or else what it held before. -/
theorem stepWith_readMem (hs : s.mem.wf = true) (h : stepWith p s = .next t) (a : Addr) :
    t.readMem a = (storedIn (storeOf p s) a).getD (s.readMem a) := by
  rcases stepWith_mem_cases h with ⟨hstore, hmem⟩ | ⟨b, v, hstore, hmem⟩
  · simp [State.readMem, hstore, hmem]
  · have hread : t.readMem a = (s.writeMem b v).readMem a := congrArg (Memory.read · a) hmem
    rw [hread, State.readMem_writeMem b a v hs, hstore, storedIn_some]
    by_cases hab : a = b
    · simp [hab]
    · simp [hab, Ne.symm hab]

/-- A run of n + 1 steps is a step and a run of n steps. -/
theorem runSteps_succ (h : runSteps p (n + 1) s = some t) :
    ∃ u, stepWith p s = .next u ∧ runSteps p n u = some t := by
  unfold runSteps at h
  split at h
  case h_1 u hu => exact ⟨u, hu, h⟩
  case h_2 => cases h
  case h_3 => cases h

/-- The last store of n + 1 steps to a cell: that of the later n steps, or else the first step's own. -/
theorem lastStored_succ {u : State} (h : stepWith p s = .next u) (n : Nat) (a : Addr) :
    lastStored p (n + 1) s a = (lastStored p n u a).or (storedIn (storeOf p s) a) := by
  simp only [lastStored, h]
  cases lastStored p n u a <;> rfl

/-- A cell after a run: what the last store to it stored, or else what it held at the start (R43). -/
theorem runSteps_readMem (hs : s.mem.wf = true) (h : runSteps p n s = some t) (a : Addr) :
    t.readMem a = (lastStored p n s a).getD (s.readMem a) := by
  induction n generalizing s with
  | zero =>
    cases h
    rfl
  | succ n ih =>
    obtain ⟨u, hu, hrest⟩ := runSteps_succ h
    rw [ih (stepWith_mem_wf hs hu) hrest, stepWith_readMem hs hu, lastStored_succ hu]
    cases lastStored p n u a <;> rfl

end Sys2Proof.Machine
end

section
/-! SUPPORT. lw and sw: their address, and what they do to the register, the cell, the caches and the trace (R34, R96, R97). -/

namespace Sys2Proof.Machine

open Sys2Proof.Claims

/-- The sign extension of an immediate as a number (R75). -/
theorem sext16_toNat (imm : Imm7) : (sext16 imm).toNat = sext imm := by
  have himm := imm.isLt
  unfold sext16 sext
  split <;> exact Nat.mod_eq_of_lt (by omega)

theorem effectiveAddr_toNat (base : Word) (imm : Imm7) :
    (effectiveAddr base imm).toNat = (base.toNat + sext imm) % 65536 % 8192 := by
  rw [effectiveAddr, low13, BitVec.toNat_setWidth, BitVec.toNat_add, sext16_toNat]

variable (rA rB : RegIdx) (imm : Imm7) (s : State)

theorem exec_lw :
    exec (.lw rA rB imm) s =
      .next ((s.cacheAccess .load (s.dataAddr rA imm)).writeAndAdvance rB (s.readMem (s.dataAddr rA imm))) := rfl

theorem exec_sw :
    exec (.sw rA rB imm) s =
      .next ((s.cacheAccess .store (s.dataAddr rA imm)).writeMem (s.dataAddr rA imm) (s.readReg rB)).advance := rfl

/-- The destination register of an lw, register 0 apart, takes the cell at the effective address (R96). -/
theorem readReg_after_lw {rB : RegIdx} (hB : rB ≠ 0) :
    ((s.cacheAccess .load (s.dataAddr rA imm)).writeAndAdvance rB (s.readMem (s.dataAddr rA imm))).readReg rB =
      s.readMem (s.dataAddr rA imm) := by
  rw [State.readReg_writeAndAdvance, State.readReg_writeReg_self, if_neg hB]

/-- The cell at the effective address of an sw takes the data register's value (R97). -/
theorem readMem_after_sw {s : State} (hs : s.mem.wf = true) :
    ((s.cacheAccess .store (s.dataAddr rA imm)).writeMem (s.dataAddr rA imm) (s.readReg rB)).advance.readMem
      (s.dataAddr rA imm) = s.readReg rB :=
  State.readMem_writeMem_self (s := s.cacheAccess .store (s.dataAddr rA imm)) _ _ hs

/-- An instruction that is neither lw nor sw makes no cache access (R66). -/
theorem exec_caches_of_not_load_store {i : Instr} {s t : State} (hlw : ∀ rA rB imm, i ≠ .lw rA rB imm)
    (hsw : ∀ rA rB imm, i ≠ .sw rA rB imm) (h : exec i s = .next t) : t.caches = s.caches ∧ t.trace = s.trace := by
  rcases exec_cases i s with ⟨_, _, _, _, _, he⟩ | ⟨rA, rB, imm, hi, _⟩ | ⟨rA, rB, imm, hi, _⟩ | ⟨_, _, _, he⟩ |
    ⟨_, _, he⟩
  case inr.inl => exact absurd hi (hlw rA rB imm)
  case inr.inr.inl => exact absurd hi (hsw rA rB imm)
  all_goals
    cases he.symm.trans h
    exact ⟨rfl, rfl⟩

/-- An instruction is an lw, an sw, or neither. -/
theorem instr_lw_or_sw_or_neither (i : Instr) :
    (∃ rA rB imm, i = .lw rA rB imm) ∨ (∃ rA rB imm, i = .sw rA rB imm) ∨
    ((∀ rA rB imm, i ≠ .lw rA rB imm) ∧ ∀ rA rB imm, i ≠ .sw rA rB imm) := by
  cases i with
  | lw rA rB imm => exact .inl ⟨rA, rB, imm, rfl⟩
  | sw rA rB imm => exact .inr (.inl ⟨rA, rB, imm, rfl⟩)
  | _ => exact .inr (.inr ⟨nofun, nofun⟩)

end Sys2Proof.Machine
end

section
/-! SUPPORT. One level's access: when a load hits, which slot an access fills, and what it leaves in the recency map
(R51 to R58). -/

namespace Sys2Proof.Machine

open Sys2Proof.Claims

variable (c : Cache)

theorem Slot.holds_iff {x : Slot} {b : Nat} : x.holds b = true ↔ ∃ tag, x = .occupied b tag := by
  cases x <;> simp [Slot.holds]

theorem Cache.rowHolds_iff {r b : Nat} : c.rowHolds r b = true ↔ ∃ tag, Slot.occupied b tag ∈ c.row r := by
  simp only [Cache.rowHolds, List.any_eq_true, Slot.holds_iff]
  constructor
  · rintro ⟨_, hx, tag, rfl⟩
    exact ⟨tag, hx⟩
  · rintro ⟨tag, hx⟩
    exact ⟨_, hx, tag, rfl⟩

/-- In a row of one slot, that slot holds a block exactly when the row is a line of it (R50). -/
theorem Cache.oneSlot_holds_iff {r b : Nat} (h : (c.row r).length = 1) :
    ((c.row r)[0]?.getD Slot.empty).holds b = true ↔ ∃ tag, c.row r = [.occupied b tag] := by
  obtain ⟨x, hx⟩ := List.length_eq_one_iff.mp h
  simp [hx, Slot.holds_iff]

theorem Cache.access_of_direct {c : Cache} (h : c.cfg.assoc = 1) (kind : AccessKind) (a : Addr) :
    c.access kind a = c.accessDirect kind a := if_pos h

theorem Cache.access_of_assoc {c : Cache} (h : c.cfg.assoc ≠ 1) (kind : AccessKind) (a : Addr) :
    c.access kind a = c.accessAssoc kind a := if_neg h

/-- A store is an SW on every level (R53). -/
theorem Cache.access_store_class (a : Addr) : (c.access .store a).1 = .sw := by
  rcases c.access_cases .store a with ⟨-, h⟩ | ⟨-, h⟩ <;> rw [h] <;> rfl

/-- A direct-mapped load, by the row's one slot (R51). -/
theorem Cache.accessDirect_load (a : Addr) :
    c.accessDirect .load a =
      if ((c.row (rowOf c.cfg a))[0]?.getD Slot.empty).holds (blockOf c.cfg a) then (.hit, c)
      else (.miss, c.setSlot (rowOf c.cfg a) 0 (lineOf c.cfg a)) := rfl

/-- A set-associative load, by the row's slots (R52). -/
theorem Cache.accessAssoc_load (a : Addr) :
    c.accessAssoc .load a =
      if c.rowHolds (rowOf c.cfg a) (blockOf c.cfg a) then (.hit, c.touch (blockOf c.cfg a))
      else (.miss, c.place (rowOf c.cfg a) (blockOf c.cfg a) (tagOf c.cfg a)) := rfl

/-- A load is a HIT or a MISS on every level (R51, R52). -/
theorem Cache.access_load_class (a : Addr) : (c.access .load a).1 = .hit ∨ (c.access .load a).1 = .miss := by
  rcases c.access_cases .load a with ⟨-, h⟩ | ⟨-, h⟩
  · rw [h, Cache.accessDirect_load]
    split
    · exact .inl rfl
    · exact .inr rfl
  · rw [h, Cache.accessAssoc_load]
    split
    · exact .inl rfl
    · exact .inr rfl

/-! The slot an access fills. -/

theorem Cache.slotReplaced_setSlot (r i : Nat) (x : Slot) : SlotReplaced c (c.setSlot r i x) r i x :=
  ⟨by rw [Cache.row_setSlot, if_pos rfl], fun r' hr => by rw [Cache.row_setSlot, if_neg hr], rfl⟩

/-- Place fills the lowest empty slot, or the victim's where there is none, and no other (R54). -/
theorem Cache.slotReplaced_place (r b tag : Nat) :
    SlotReplaced c (c.place r b tag) r ((firstEmpty (c.row r)).getD (c.victim r)) (.occupied b tag) :=
  ⟨by rw [Cache.place_row, if_pos rfl], fun r' hr => by rw [Cache.place_row, if_neg hr], c.place_cfg r b tag⟩

theorem Cache.isLowestEmpty_of_firstEmpty {r i : Nat} (h : firstEmpty (c.row r) = some i) : IsLowestEmpty c r i := by
  have hspec := firstEmpty_spec (c.row r)
  rwa [h] at hspec

theorem firstEmpty_eq_none_iff {row : List Slot} : firstEmpty row = none ↔ Slot.empty ∉ row := by
  have hspec := firstEmpty_spec row
  cases h : firstEmpty row with
  | none =>
    rw [h] at hspec
    exact iff_of_true rfl hspec
  | some i =>
    rw [h] at hspec
    exact iff_of_false nofun (not_not_intro (List.mem_of_getElem? hspec.1))

theorem firstEmpty_eq_some_of_mem {row : List Slot} (h : Slot.empty ∈ row) : ∃ i, firstEmpty row = some i :=
  Option.ne_none_iff_exists'.mp fun hn => firstEmpty_eq_none_iff.mp hn h

/-- The controller's order of the keys of two lines is the order of their counters, an orphan's above all (R55). -/
theorem victimKey_less_iff (b tag b' tag' : Nat) :
    (victimKey c.recency (.occupied b tag)).less (victimKey c.recency (.occupied b' tag')) = true ↔
      keyOf c b < keyOf c b' := by
  simp only [victimKey, keyOf]
  cases recFind c.recency b <;> cases recFind c.recency b' <;> simp [VictimKey.less]

/-- In a full row, the slot that Victim selects is the lowest of those with the largest key (R55). -/
theorem Cache.isVictim_victim {r : Nat} (hne : c.row r ≠ []) (hfull : Slot.empty ∉ c.row r) :
    IsVictim c r (c.victim r) := by
  obtain ⟨k, hk, hmax, hmin⟩ := firstLargest_spec (keys := (c.row r).map (victimKey c.recency)) (by simpa using hne)
  rw [List.getElem?_map] at hk
  obtain ⟨x, hx, rfl⟩ := Option.map_eq_some_iff.mp hk
  cases x with
  | empty => exact absurd (List.mem_of_getElem? hx) hfull
  | occupied b tag =>
    refine ⟨b, tag, hx, fun j b' tag' hj => ⟨?_, fun hlt => ?_⟩⟩
    · have hless := hmax _ (List.mem_map_of_mem (List.mem_of_getElem? hj))
      rw [← not_lt, ← victimKey_less_iff c b tag b' tag', hless]
      exact Bool.false_ne_true
    · obtain ⟨k', hk', hless⟩ := hmin j hlt
      rw [List.getElem?_map, hj] at hk'
      cases hk'
      exact (victimKey_less_iff c b' tag' b tag).mp hless

/-! The recency map. -/

/-- A counter after an eviction: none for the evicted line's block, every other as before (R57). -/
theorem Cache.recFind_evict (x : Slot) (k : Nat) :
    recFind (c.evict x).recency k = if x.holds k then none else recFind c.recency k := by
  cases x with
  | empty => rfl
  | occupied b tag => simp [Cache.evict, Slot.holds, recFind_recErase, eq_comm]

/-- The accessed block's counter is 0 after every set-associative access (R58). -/
theorem Cache.recFind_accessAssoc_self (kind : AccessKind) (a : Addr) :
    recFind (c.accessAssoc kind a).2.recency (blockOf c.cfg a) = some 0 := by
  rcases c.accessAssoc_cases kind a with ⟨-, h, -⟩ | ⟨cls, h, -⟩ <;> rw [h]
  · rw [Cache.touch_recency, recFind_recTouch, if_pos rfl]
  · rcases c.place_cases (rowOf c.cfg a) (blockOf c.cfg a) (tagOf c.cfg a) with ⟨i, -, hp⟩ | ⟨-, hp⟩ <;>
      rw [hp, Cache.touch_recency, recFind_recTouch, if_pos rfl]

/-- A placement into an empty slot ages every block but the one placed. -/
theorem Cache.recFind_place_of_empty {r b tag k : Nat} (h : Slot.empty ∈ c.row r) (hk : k ≠ b) :
    recFind (c.place r b tag).recency k = (recFind c.recency k).map (· + 1) := by
  rcases c.place_cases r b tag with ⟨i, -, hp⟩ | ⟨hn, -⟩
  · rw [hp, Cache.touch_recency, recFind_recTouch, if_neg hk, Cache.setSlot_recency]
  · exact absurd h (firstEmpty_eq_none_iff.mp hn)

/-- A placement into a full row drops the victim's block from the map, and ages every other but the one placed (R57, R58). -/
theorem Cache.recFind_place_of_full {r b tag k : Nat} (h : Slot.empty ∉ c.row r) (hk : k ≠ b) :
    recFind (c.place r b tag).recency k =
      if ((c.row r)[c.victim r]?.getD Slot.empty).holds k then none else (recFind c.recency k).map (· + 1) := by
  rcases c.place_cases r b tag with ⟨i, hi, -⟩ | ⟨-, hp⟩
  · exact absurd (firstEmpty_eq_none_iff.mpr h) (by simp [hi])
  · rw [hp, Cache.touch_recency, recFind_recTouch, if_neg hk, Cache.setSlot_recency, Cache.recFind_evict,
      apply_ite (Option.map _)]
    rfl

theorem Slot.getD_holds_iff {row : List Slot} {i k : Nat} :
    (row[i]?.getD Slot.empty).holds k = true ↔ ∃ tag, row[i]? = some (.occupied k tag) := by
  cases row[i]? with
  | none => simp [Slot.holds]
  | some x => simp [Slot.holds_iff]

end Sys2Proof.Machine
end

section
/-! SUPPORT. The hierarchy's access and the records of it, by the number of levels (R62 to R66). -/

namespace Sys2Proof.Machine

open Sys2Proof.Claims

variable (l1 l2 : Cache) (kind : AccessKind) (a : Addr) (pc : Word)

theorem Hierarchy.noCache_access : Hierarchy.noCache.access kind a pc = (.noCache, []) := rfl

theorem Hierarchy.oneLevel_access :
    (Hierarchy.oneLevel l1).access kind a pc =
      (.oneLevel (l1.access kind a).2, [⟨.l1, (l1.access kind a).1, pc, a, rowOf l1.cfg a⟩]) := rfl

/-- A load that hits L1 leaves L2 alone (R63). -/
theorem Hierarchy.twoLevels_load_of_hit (h : (l1.access .load a).1 = .hit) :
    (Hierarchy.twoLevels l1 l2).access .load a pc =
      (.twoLevels (l1.access .load a).2 l2, [⟨.l1, .hit, pc, a, rowOf l1.cfg a⟩]) := by
  simp [Hierarchy.access, consultsL2, h]

/-- A load that misses L1 goes on to L2 (R63). -/
theorem Hierarchy.twoLevels_load_of_miss (h : (l1.access .load a).1 = .miss) :
    (Hierarchy.twoLevels l1 l2).access .load a pc =
      (.twoLevels (l1.access .load a).2 (l2.access .load a).2,
        [⟨.l1, .miss, pc, a, rowOf l1.cfg a⟩, ⟨.l2, (l2.access .load a).1, pc, a, rowOf l2.cfg a⟩]) := by
  simp [Hierarchy.access, consultsL2, h]

/-- A store goes to both levels (R64). -/
theorem Hierarchy.twoLevels_store :
    (Hierarchy.twoLevels l1 l2).access .store a pc =
      (.twoLevels (l1.access .store a).2 (l2.access .store a).2,
        [⟨.l1, .sw, pc, a, rowOf l1.cfg a⟩, ⟨.l2, .sw, pc, a, rowOf l2.cfg a⟩]) := by
  simp [Hierarchy.access, consultsL2, Cache.access_store_class]

/-- The records of an access name their levels in order, the pc, the address and each level's row (R65). -/
theorem Hierarchy.access_recordFields (s : State) (kind : AccessKind) (ea : Addr) :
    RecordFields s ea (s.caches.access kind ea s.pc).2 := by
  rcases s.caches.access_cases kind ea s.pc with ⟨hc, h⟩ | ⟨l1, hc, h⟩ | ⟨l1, l2, hc, -, h⟩ | ⟨l1, l2, hc, -, h⟩
  all_goals
    rw [h]
    simp [RecordFields, hc, Hierarchy.levels]

/-- Every level of a store answers SW (R64, R66). -/
theorem Hierarchy.access_store_classes (h : Hierarchy) :
    (h.access .store a pc).2.map (fun e => e.cls) = h.levels.map (fun _ => .sw) := by
  cases h with
  | noCache => rfl
  | oneLevel l1 => simp [Hierarchy.oneLevel_access, Hierarchy.levels, Cache.access_store_class]
  | twoLevels l1 l2 => simp [Hierarchy.twoLevels_store, Hierarchy.levels]

/-- The answers that the levels of a hierarchy may give to a load, L1's first (R66). -/
def Hierarchy.loadClasses (h : Hierarchy) : List (List AccessClass) :=
  match h with
  | .noCache => [[]]
  | .oneLevel _ => [[.hit], [.miss]]
  | .twoLevels _ _ => [[.hit], [.miss, .hit], [.miss, .miss]]

/-- L1 answers a load with HIT or MISS, and L2 answers one that misses L1 (R63, R66). -/
theorem Hierarchy.access_load_classes (h : Hierarchy) :
    (h.access .load a pc).2.map (fun e => e.cls) ∈ h.loadClasses := by
  cases h with
  | noCache => simp [Hierarchy.noCache_access, Hierarchy.loadClasses]
  | oneLevel l1 => simpa [Hierarchy.oneLevel_access, Hierarchy.loadClasses] using l1.access_load_class a
  | twoLevels l1 l2 =>
    rcases l1.access_load_class a with hhit | hmiss
    · simp [Hierarchy.twoLevels_load_of_hit l1 l2 a pc hhit, Hierarchy.loadClasses]
    · simpa [Hierarchy.twoLevels_load_of_miss l1 l2 a pc hmiss, Hierarchy.loadClasses] using l2.access_load_class a

end Sys2Proof.Machine
end

section
/-! The statements of 20_memory.md about memory, the cache levels and the records. -/

namespace Sys2Proof.Proofs

open Sys2Proof.Machine Sys2Proof.Claims

/-- Settles O35, by induction on the number of steps: the last store to a cell is the later steps' or the first step's own. -/
theorem loadReturnsTheLastStore : Obligations.LoadReturnsTheLastStore := by
  intro p n s t hs hrun
  have hcell := runSteps_readMem hs hrun
  refine ⟨hcell, fun rA rB imm hB => ⟨_, exec_lw rA rB imm t, ?_⟩⟩
  rw [readReg_after_lw rA imm t hB, hcell]

/-- Settles O34: a cell that reads differently after a step is the one of the step's store, and only an sw has a store. -/
theorem onlySwChangesMemory : Obligations.OnlySwChangesMemory := by
  intro p s t hs hstep a hne
  have hcell := stepWith_readMem hs hstep a
  cases hstored : storedIn (storeOf p s) a with
  | none =>
    rw [hstored] at hcell
    exact absurd hcell hne
  | some v =>
    obtain ⟨hsent, hinstr⟩ := storeOf_eq_some (storedIn_eq_some.mp hstored)
    obtain ⟨rA, rB, imm, hdecode, ha, rfl⟩ := storeOfInstr_eq_some hinstr
    rw [hstored] at hcell
    exact ⟨hsent, rA, rB, imm, hdecode, ha, hcell⟩

/-- Settles O43, by the row's one slot. -/
theorem directMappedAccess : Obligations.DirectMappedAccess := by
  intro c a hassoc hrow
  rw [← c.oneSlot_holds_iff hrow, Cache.access_of_direct hassoc, Cache.access_of_direct hassoc]
  refine ⟨fun hhit => ?_, fun hmiss => ?_, rfl, rfl, c.slotReplaced_setSlot _ _ _⟩
  · rw [Cache.accessDirect_load, if_pos hhit]
  · rw [Cache.accessDirect_load, if_neg hmiss]
    exact ⟨rfl, rfl, c.slotReplaced_setSlot _ _ _⟩

/-- Settles O45, by the two ways of Place: the lowest empty slot, or in a full row the victim's. -/
theorem placeFillsTheLowestEmptySlotOrTheVictims : Obligations.PlaceFillsTheLowestEmptySlotOrTheVictims := by
  refine ⟨fun c a hassoc => Cache.access_of_assoc hassoc .store a, fun c r b tag hne => ?_⟩
  have hplace := c.slotReplaced_place r b tag
  constructor
  · intro hempty
    obtain ⟨i, hi⟩ := firstEmpty_eq_some_of_mem hempty
    rw [hi] at hplace
    exact ⟨i, c.isLowestEmpty_of_firstEmpty hi, hplace⟩
  · intro hfull
    rw [firstEmpty_eq_none_iff.mpr hfull] at hplace
    exact ⟨c.victim r, c.isVictim_victim hne hfull, hplace⟩

/-- Settles O46: a hit touches the block; any other access places it, into an empty slot or the victim's. -/
theorem everyAccessTouchesTheRecencyMap : Obligations.EveryAccessTouchesTheRecencyMap := by
  intro c kind a hassoc
  rw [Cache.access_of_assoc hassoc]
  refine ⟨c.recFind_accessAssoc_self kind a, ?_, ?_⟩
  · intro hcase k hk
    rcases c.accessAssoc_cases kind a with ⟨-, h, -⟩ | ⟨cls, h, hcls⟩
    · rw [h, Cache.touch_recency, recFind_recTouch, if_neg hk]
    · have hnot : cls ≠ .hit := by rcases hcls with ⟨-, rfl, -⟩ | ⟨-, rfl⟩ <;> nofun
      rw [h] at hcase ⊢
      exact c.recFind_place_of_empty (hcase.resolve_left hnot) hk
  · rintro ⟨hnot, hfull⟩
    rcases c.accessAssoc_cases kind a with ⟨-, h, -⟩ | ⟨cls, h, -⟩
    · exact absurd (congrArg Prod.fst h) hnot
    · have hplace := c.slotReplaced_place (rowOf c.cfg a) (blockOf c.cfg a) (tagOf c.cfg a)
      rw [firstEmpty_eq_none_iff.mpr hfull] at hplace
      rw [h]
      refine ⟨c.victim (rowOf c.cfg a), hplace, fun k hk => ?_⟩
      rw [c.recFind_place_of_full hfull hk, ← Slot.getD_holds_iff]
      exact ⟨fun hheld => if_pos hheld, fun hheld => if_neg hheld⟩

/-- Settles O53, by whether the instruction is an lw, an sw or neither. -/
theorem recordsOfEachInstruction : Obligations.RecordsOfEachInstruction := by
  intro i s t h
  rcases instr_lw_or_sw_or_neither i with ⟨rA, rB, imm, rfl⟩ | ⟨rA, rB, imm, rfl⟩ | ⟨hlw, hsw⟩
  · cases (exec_lw rA rB imm s).symm.trans h
    refine ⟨_, rfl, fun hlw => absurd rfl (hlw rA rB imm), nofun, ?_⟩
    rintro _ _ _ ⟨⟩
    exact ⟨Hierarchy.access_load_classes _ _ s.caches, Hierarchy.access_recordFields s .load _⟩
  · cases (exec_sw rA rB imm s).symm.trans h
    refine ⟨_, rfl, fun _ hsw => absurd rfl (hsw rA rB imm), ?_, nofun⟩
    rintro _ _ _ ⟨⟩
    exact ⟨Hierarchy.access_store_classes _ _ s.caches, Hierarchy.access_recordFields s .store _⟩
  · obtain ⟨hcaches, htrace⟩ := exec_caches_of_not_load_store hlw hsw h
    exact ⟨[], by simp [htrace], fun _ _ => ⟨rfl, hcaches⟩, fun rA rB imm hi => absurd hi (hsw rA rB imm),
      fun rA rB imm hi => absurd hi (hlw rA rB imm)⟩

/-- Settles O15: lw, sw and the cache access all take their address from the one translator. -/
theorem effectiveAddressIsTheLow13BitsOfTheSum : Obligations.EffectiveAddressIsTheLow13BitsOfTheSum := by
  refine ⟨effectiveAddr_toNat, by decide, fun rA rB imm s hs => ⟨?_, ?_⟩⟩
  · exact ⟨_, exec_lw rA rB imm s, readReg_after_lw rA imm s, rfl⟩
  · exact ⟨_, exec_sw rA rB imm s, readMem_after_sw rA rB imm hs, rfl⟩

/-- Settles O44, by whether some slot of the row holds the block. -/
theorem setAssociativeLoad : Obligations.SetAssociativeLoad := by
  intro c a hassoc
  rw [← c.rowHolds_iff, Cache.access_of_assoc hassoc, Cache.accessAssoc_load]
  exact ⟨fun hhit => if_pos hhit, fun hmiss => if_neg hmiss⟩

/-- Settles O51, by L1's answer. -/
theorem loadConsultsL2OnlyOnAnL1Miss : Obligations.LoadConsultsL2OnlyOnAnL1Miss := by
  intro l1 l2 a pc
  exact ⟨Hierarchy.twoLevels_load_of_hit l1 l2 a pc, Hierarchy.twoLevels_load_of_miss l1 l2 a pc, l1.access_load_class a,
    Hierarchy.oneLevel_access l1 .load a pc, Hierarchy.noCache_access .load a pc⟩

/-- Settles O52: a store consults every level, and every level answers SW. -/
theorem storeUpdatesEveryLevel : Obligations.StoreUpdatesEveryLevel := by
  intro a pc
  refine ⟨Hierarchy.noCache_access .store a pc, fun l1 => ?_, fun l1 l2 => Hierarchy.twoLevels_store l1 l2 a pc⟩
  rw [Hierarchy.oneLevel_access, Cache.access_store_class]

end Sys2Proof.Proofs
end

section
/-! SUPPORT. The decoder from the word's side: what each opcode gives (30_encoding.md R77), and what opcode 000 gives for each
function code (R78, R82). -/

namespace Sys2Proof

open Sys2Proof.Claims

@[simp] theorem FuncCodes.mem_codes (fc : FuncCodes) (f : Fn) :
    f ∈ fc.codes ↔ f = fc.add ∨ f = fc.sub ∨ f = fc.or ∨ f = fc.and ∨ f = fc.slt ∨ f = fc.jr := by
  simp [FuncCodes.codes]

/-- The ways of the function-code decoder, in the order it asks for the codes (R80). The codes need not be distinct: where two
are equal, the one asked for first decides. -/
theorem decodeFn_cases (fc : FuncCodes) (w : Word) :
    (fnField w = fc.add ∧ decodeFn fc w = .add (rAField w) (rBField w) (rCField w)) ∨
    (fnField w = fc.sub ∧ decodeFn fc w = .sub (rAField w) (rBField w) (rCField w)) ∨
    (fnField w = fc.or ∧ decodeFn fc w = .or (rAField w) (rBField w) (rCField w)) ∨
    (fnField w = fc.and ∧ decodeFn fc w = .and (rAField w) (rBField w) (rCField w)) ∨
    (fnField w = fc.slt ∧ decodeFn fc w = .slt (rAField w) (rBField w) (rCField w)) ∨
    (fnField w = fc.jr ∧ decodeFn fc w = .jr (rAField w)) ∨
    (fnField w ∉ fc.codes ∧ decodeFn fc w = .undefined) := by
  unfold decodeFn
  split_ifs with hadd hsub hor hand hslt hjr
  · exact .inl ⟨hadd, rfl⟩
  · exact .inr (.inl ⟨hsub, rfl⟩)
  · exact .inr (.inr (.inl ⟨hor, rfl⟩))
  · exact .inr (.inr (.inr (.inl ⟨hand, rfl⟩)))
  · exact .inr (.inr (.inr (.inr (.inl ⟨hslt, rfl⟩))))
  · exact .inr (.inr (.inr (.inr (.inr (.inl ⟨hjr, rfl⟩)))))
  · have hnone : fnField w ∉ fc.codes := by simp [hadd, hsub, hor, hand, hslt, hjr]
    exact .inr (.inr (.inr (.inr (.inr (.inr ⟨hnone, rfl⟩)))))

/-- A function code that is one of the six gives one of the six instructions (R78). -/
theorem decodeFn_of_mem_codes {fc : FuncCodes} {w : Word} (h : fnField w ∈ fc.codes) :
    ∃ rA rB rC, decodeFn fc w = .add rA rB rC ∨ decodeFn fc w = .sub rA rB rC ∨ decodeFn fc w = .or rA rB rC ∨
      decodeFn fc w = .and rA rB rC ∨ decodeFn fc w = .slt rA rB rC ∨ decodeFn fc w = .jr rA := by
  refine ⟨rAField w, rBField w, rCField w, ?_⟩
  rcases decodeFn_cases fc w with ⟨_, he⟩ | ⟨_, he⟩ | ⟨_, he⟩ | ⟨_, he⟩ | ⟨_, he⟩ | ⟨_, he⟩ | ⟨hnone, _⟩
  case inr.inr.inr.inr.inr.inr => exact absurd h hnone
  all_goals simp [he]

/-- A function code that is none of the six gives `undefined` (R82). -/
theorem decodeFn_of_not_mem_codes {fc : FuncCodes} {w : Word} (h : fnField w ∉ fc.codes) :
    decodeFn fc w = .undefined := by
  rcases decodeFn_cases fc w with ⟨hf, _⟩ | ⟨hf, _⟩ | ⟨hf, _⟩ | ⟨hf, _⟩ | ⟨hf, _⟩ | ⟨hf, _⟩ | ⟨_, he⟩
  case inr.inr.inr.inr.inr.inr => exact he
  all_goals exact absurd ((fc.mem_codes _).mpr (by simp [hf])) h

/-! The opcodes other than 000 (R77). -/

theorem decodesRRI_addi : DecodesRRI 0b001 .addi := fun fc w h => by simp [decodeWith, h]
theorem decodesI13_j : DecodesI13 0b010 .j := fun fc w h => by simp [decodeWith, h]
theorem decodesI13_jal : DecodesI13 0b011 .jal := fun fc w h => by simp [decodeWith, h]
theorem decodesRRI_lw : DecodesRRI 0b100 .lw := fun fc w h => by simp [decodeWith, h]
theorem decodesRRI_sw : DecodesRRI 0b101 .sw := fun fc w h => by simp [decodeWith, h]
theorem decodesRRI_jeq : DecodesRRI 0b110 .jeq := fun fc w h => by simp [decodeWith, h]
theorem decodesRRI_slti : DecodesRRI 0b111 .slti := fun fc w h => by simp [decodeWith, h]

end Sys2Proof
end

section
/-! The statements of 30_encoding.md about the opcode map. -/

namespace Sys2Proof.Proofs

open Sys2Proof.Machine Sys2Proof.Claims

/-- Settles O3, opcode by opcode; under opcode 000 by whether the function code is one of the six. -/
theorem opcodeMapIsTotal : Obligations.OpcodeMapIsTotal := by
  intro fc w
  refine ⟨fun h => ?opcodeZero, fun h => ⟨_, _, _, decodesRRI_addi fc w h⟩, fun h => ⟨_, decodesI13_j fc w h⟩,
    fun h => ⟨_, decodesI13_jal fc w h⟩, fun h => ⟨_, _, _, decodesRRI_lw fc w h⟩,
    fun h => ⟨_, _, _, decodesRRI_sw fc w h⟩, fun h => ⟨_, _, _, decodesRRI_jeq fc w h⟩,
    fun h => ⟨_, _, _, decodesRRI_slti fc w h⟩⟩
  case opcodeZero =>
    rw [decodeWith_of_op_zero h]
    exact ⟨decodeFn_of_mem_codes, decodeFn_of_not_mem_codes⟩

end Sys2Proof.Proofs
end

section
/-! SUPPORT. What the ALU instructions share: the decoding of their words (30_encoding.md R78 to R80), the ALU's results as
numbers modulo 65536 (40_alu.md R88), and the one shape of their next states. -/

namespace Sys2Proof

open Sys2Proof.Claims

/-! Under distinct codes no earlier question of the decoder takes the word of a later code (R79, R80). -/

theorem decodesRRR_add : DecodesRRR FuncCodes.add .add := by
  intro fc _ w hop hfn
  rw [decodeWith_of_op_zero hop, decodeFn, if_pos hfn]

theorem decodesRRR_sub : DecodesRRR FuncCodes.sub .sub := by
  intro fc hd w hop hfn
  obtain ⟨⟨hadd, -⟩, -⟩ := fc.distinct_iff.mp hd
  simp [decodeWith_of_op_zero hop, decodeFn, hfn, hadd.symm]

theorem decodesRRR_or : DecodesRRR FuncCodes.or .or := by
  intro fc hd w hop hfn
  obtain ⟨⟨-, hadd, -⟩, ⟨hsub, -⟩, -⟩ := fc.distinct_iff.mp hd
  simp [decodeWith_of_op_zero hop, decodeFn, hfn, hadd.symm, hsub.symm]

theorem decodesRRR_and : DecodesRRR FuncCodes.and .and := by
  intro fc hd w hop hfn
  obtain ⟨⟨-, -, hadd, -⟩, ⟨-, hsub, -⟩, ⟨hor, -⟩, -⟩ := fc.distinct_iff.mp hd
  simp [decodeWith_of_op_zero hop, decodeFn, hfn, hadd.symm, hsub.symm, hor.symm]

theorem decodesRRR_slt : DecodesRRR FuncCodes.slt .slt := by
  intro fc hd w hop hfn
  obtain ⟨⟨-, -, -, hadd, -⟩, ⟨-, -, hsub, -⟩, ⟨-, hor, -⟩, ⟨hand, -⟩, -⟩ := fc.distinct_iff.mp hd
  simp [decodeWith_of_op_zero hop, decodeFn, hfn, hadd.symm, hsub.symm, hor.symm, hand.symm]

end Sys2Proof

namespace Sys2Proof.Machine

open Sys2Proof.Claims

/-! The ALU's results as numbers (R88). -/

section alu
variable (a b : Word)

theorem aluAdd_eq_ofNat : aluAdd a b = BitVec.ofNat 16 (a.toNat + b.toNat) := by
  rw [aluAdd, BitVec.ofNat_add, BitVec.ofNat_toNat, BitVec.ofNat_toNat, BitVec.setWidth_eq, BitVec.setWidth_eq]

/-- The difference modulo 65536, with 65536 added so that it is never negative (R88). -/
theorem aluSub_eq_ofNat : aluSub a b = BitVec.ofNat 16 (a.toNat + 65536 - b.toNat) := by
  have hb : b.toNat < 65536 := b.isLt
  apply BitVec.eq_of_toNat_eq
  rw [aluSub, BitVec.toNat_sub, BitVec.toNat_ofNat]
  congr 1
  omega

theorem aluOr_eq_ofNat : aluOr a b = BitVec.ofNat 16 (a.toNat ||| b.toNat) := by
  rw [aluOr, ← BitVec.toNat_or, BitVec.ofNat_toNat, BitVec.setWidth_eq]

theorem aluAnd_eq_ofNat : aluAnd a b = BitVec.ofNat 16 (a.toNat &&& b.toNat) := by
  rw [aluAnd, ← BitVec.toNat_and, BitVec.ofNat_toNat, BitVec.setWidth_eq]

theorem aluLtu_eq_ofNat : aluLtu a b = BitVec.ofNat 16 (if a.toNat < b.toNat then 1 else 0) := by
  unfold aluLtu
  split <;> rfl

end alu

/-! The instructions' equations (R89 to R95). -/

section exec
variable (rA rB rC : RegIdx) (imm : Imm7) (s : State)

theorem exec_add :
    exec (.add rA rB rC) s = .next (s.writeAndAdvance rC (aluAdd (s.readReg rA) (s.readReg rB))) := rfl
theorem exec_sub :
    exec (.sub rA rB rC) s = .next (s.writeAndAdvance rC (aluSub (s.readReg rA) (s.readReg rB))) := rfl
theorem exec_or :
    exec (.or rA rB rC) s = .next (s.writeAndAdvance rC (aluOr (s.readReg rA) (s.readReg rB))) := rfl
theorem exec_and :
    exec (.and rA rB rC) s = .next (s.writeAndAdvance rC (aluAnd (s.readReg rA) (s.readReg rB))) := rfl
theorem exec_slt :
    exec (.slt rA rB rC) s = .next (s.writeAndAdvance rC (aluLtu (s.readReg rA) (s.readReg rB))) := rfl
theorem exec_addi :
    exec (.addi rA rB imm) s = .next (s.writeAndAdvance rB (aluAdd (s.readReg rA) (sext16 imm))) := rfl
theorem exec_slti :
    exec (.slti rA rB imm) s = .next (s.writeAndAdvance rB (aluLtu (s.readReg rA) (sext16 imm))) := rfl

end exec

/-- An instruction that ends with a register write and the next pc has that register as its only result; where d is 0 the
write is suppressed (R14). -/
theorem registerResult_of_writeAndAdvance {i : Instr} {s : State} {d : RegIdx} {v : Word} {n : Nat}
    (hexec : exec i s = .next (s.writeAndAdvance d v)) (hv : v = BitVec.ofNat 16 n) : RegisterResult i s d n := by
  subst hv
  exact ⟨_, hexec, fun r => s.readReg_writeReg d r _, BitVec.toNat_add s.pc 1, fun _ => rfl, ⟨rfl, rfl⟩, rfl⟩

end Sys2Proof.Machine
end

section
/-! The statements of 40_alu.md: how the words decode, and which value of the ALU the instruction writes. -/

namespace Sys2Proof.Proofs

open Sys2Proof.Machine Sys2Proof.Claims

/-- Settles O8: the ALU's sum. -/
theorem addWritesTheSumModulo65536 : Obligations.AddWritesTheSumModulo65536 :=
  ⟨decodesRRR_add, fun rA rB rC s => registerResult_of_writeAndAdvance (exec_add rA rB rC s) (aluAdd_eq_ofNat _ _)⟩

/-- Settles O9: the ALU's difference. -/
theorem subWritesTheDifferenceModulo65536 : Obligations.SubWritesTheDifferenceModulo65536 :=
  ⟨decodesRRR_sub, fun rA rB rC s => registerResult_of_writeAndAdvance (exec_sub rA rB rC s) (aluSub_eq_ofNat _ _)⟩

/-- Settles O10: the ALU's or. -/
theorem orWritesTheBitwiseOr : Obligations.OrWritesTheBitwiseOr :=
  ⟨decodesRRR_or, fun rA rB rC s => registerResult_of_writeAndAdvance (exec_or rA rB rC s) (aluOr_eq_ofNat _ _)⟩

/-- Settles O11: the ALU's and. -/
theorem andWritesTheBitwiseAnd : Obligations.AndWritesTheBitwiseAnd :=
  ⟨decodesRRR_and, fun rA rB rC s => registerResult_of_writeAndAdvance (exec_and rA rB rC s) (aluAnd_eq_ofNat _ _)⟩

/-- Settles O12: the ALU's unsigned comparison. -/
theorem sltComparesUnsigned : Obligations.SltComparesUnsigned :=
  ⟨decodesRRR_slt, fun rA rB rC s => registerResult_of_writeAndAdvance (exec_slt rA rB rC s) (aluLtu_eq_ofNat _ _)⟩

/-- Settles O13: the ALU's sum with the extended immediate. -/
theorem addiAddsTheSignExtendedImmediate : Obligations.AddiAddsTheSignExtendedImmediate := by
  refine ⟨decodesRRI_addi, fun rA rB imm s => registerResult_of_writeAndAdvance (exec_addi rA rB imm s) ?_⟩
  rw [← sext16_toNat, ← aluAdd_eq_ofNat]

/-- Settles O14: the ALU's unsigned comparison with the extended immediate. -/
theorem sltiComparesUnsignedWithTheExtension : Obligations.SltiComparesUnsignedWithTheExtension := by
  refine ⟨decodesRRI_slti, fun rA rB imm s => registerResult_of_writeAndAdvance (exec_slti rA rB imm s) ?_⟩
  rw [← sext16_toNat, ← aluLtu_eq_ofNat]

end Sys2Proof.Proofs
end

section
/-! SUPPORT. The registers after an lw and the cells after an sw, each with what is left unchanged (41_load_store.md). -/

namespace Sys2Proof.Machine

open Sys2Proof.Claims

variable (rA rB : RegIdx) (imm : Imm7) (s : State)

/-- The address of a data access as a number (R34). -/
theorem State.dataAddr_toNat :
    (s.dataAddr rA imm).toNat = ((s.readReg rA).toNat + sext imm) % 65536 % 8192 :=
  effectiveAddr_toNat (s.readReg rA) imm

/-- The next pc is the successor modulo 65536 (R99). -/
theorem State.nextPc_toNat : s.nextPc.toNat = (s.pc.toNat + 1) % 65536 := BitVec.toNat_add s.pc 1

/-- A register write after a cache access is the only change of the registers; where d is 0 it is suppressed (R14). -/
theorem writesOnly_cacheAccess_writeAndAdvance (kind : AccessKind) (a : Addr) (d : RegIdx) (v : Word) :
    WritesOnly s ((s.cacheAccess kind a).writeAndAdvance d v) d v.toNat := by
  intro r
  rw [State.readReg_writeAndAdvance, State.readReg_writeReg, State.readReg_cacheAccess, BitVec.ofNat_toNat,
    BitVec.setWidth_eq]

/-- An sw changes no cell but the one at its effective address (R36, R97). -/
theorem readMem_after_sw_ne {a : Addr} (ha : a ≠ s.dataAddr rA imm) :
    ((s.cacheAccess .store (s.dataAddr rA imm)).writeMem (s.dataAddr rA imm) (s.readReg rB)).advance.readMem a =
      s.readMem a := by
  rw [State.readMem_advance, State.readMem_writeMem_ne _ _ ha, State.readMem_cacheAccess]

end Sys2Proof.Machine
end

section
/-! The statements of 41_load_store.md about lw and sw. -/

namespace Sys2Proof.Proofs

open Sys2Proof.Machine Sys2Proof.Claims

/-- Settles O16: the next state of lw is the cache access, then the one register write. -/
theorem lwLoadsTheCellAtTheEffectiveAddress : Obligations.LwLoadsTheCellAtTheEffectiveAddress := by
  refine ⟨decodesRRI_lw, fun rA rB imm s => ⟨s.dataAddr_toNat rA imm, _, exec_lw rA rB imm s, ?_⟩⟩
  have hregs := writesOnly_cacheAccess_writeAndAdvance s .load (s.dataAddr rA imm) rB (s.readMem (s.dataAddr rA imm))
  exact ⟨hregs, s.nextPc_toNat, fun _ => rfl, rfl, rfl, rfl⟩

/-- Settles O17: the next state of sw is the cache access, then the one memory write. -/
theorem swStoresAtTheEffectiveAddress : Obligations.SwStoresAtTheEffectiveAddress := by
  refine ⟨decodesRRI_sw, fun rA rB imm s hs => ⟨s.dataAddr_toNat rA imm, _, exec_sw rA rB imm s, ?_⟩⟩
  have hcell := readMem_after_sw rA rB imm hs
  exact ⟨hcell, fun _ ha => readMem_after_sw_ne rA rB imm s ha, fun _ => rfl, s.nextPc_toNat, rfl, rfl, rfl⟩

end Sys2Proof.Proofs
end

section
/-! SUPPORT. The opcode of a decoded word, and the words of jr and j (30_encoding.md R77, R81; 42_control.md R104). -/

namespace Sys2Proof

/-- The eight opcode values (R77). -/
theorem Opcode.cases (op : Opcode) :
    op = 0b000 ∨ op = 0b001 ∨ op = 0b010 ∨ op = 0b011 ∨ op = 0b100 ∨ op = 0b101 ∨ op = 0b110 ∨ op = 0b111 := by
  revert op
  decide

/-- Every function code gives an instruction of opcode 000 (R78). -/
theorem opcodeOf_decodeFn (fc : FuncCodes) (w : Word) : Laws.opcodeOf (decodeFn fc w) = 0b000 := by
  rcases decodeFn_cases fc w with ⟨_, he⟩ | ⟨_, he⟩ | ⟨_, he⟩ | ⟨_, he⟩ | ⟨_, he⟩ | ⟨_, he⟩ | ⟨_, he⟩
  all_goals
    rw [he]
    rfl

/-- The opcode of a decoded instruction is the opcode field of its word, whatever the function codes (R77). -/
theorem opcodeOf_decodeWith (fc : FuncCodes) (w : Word) : Laws.opcodeOf (decodeWith fc w) = opField w := by
  rcases Opcode.cases (opField w) with h | h | h | h | h | h | h | h
  · rw [decodeWith_of_op_zero h, opcodeOf_decodeFn, h]
  · rw [decodesRRI_addi fc w h, h, Laws.opcodeOf]
  · rw [decodesI13_j fc w h, h, Laws.opcodeOf]
  · rw [decodesI13_jal fc w h, h, Laws.opcodeOf]
  · rw [decodesRRI_lw fc w h, h, Laws.opcodeOf]
  · rw [decodesRRI_sw fc w h, h, Laws.opcodeOf]
  · rw [decodesRRI_jeq fc w h, h, Laws.opcodeOf]
  · rw [decodesRRI_slti fc w h, h, Laws.opcodeOf]

/-- Under distinct codes no earlier question of the decoder takes a word of jr (R79 to R81). -/
theorem decodeWith_of_jr {fc : FuncCodes} (hd : fc.Distinct) {w : Word} (hop : opField w = 0b000)
    (hfn : fnField w = fc.jr) : decodeWith fc w = .jr (rAField w) := by
  obtain ⟨⟨-, -, -, -, hadd⟩, ⟨-, -, -, hsub⟩, ⟨-, -, hor⟩, ⟨-, hand⟩, hslt⟩ := fc.distinct_iff.mp hd
  simp [decodeWith_of_op_zero hop, decodeFn, hfn, hadd.symm, hsub.symm, hor.symm, hand.symm, hslt.symm]

/-- Exactly one word decodes to a given j (R74, R77). -/
theorem decodeWith_eq_j_iff {fc : FuncCodes} {w : Word} {imm : Imm13} :
    decodeWith fc w = .j imm ↔ w = wordI13 0b010 imm := by
  constructor
  · intro h
    have hop : opField w = 0b010 := (opcodeOf_decodeWith fc w).symm.trans (congrArg Laws.opcodeOf h)
    have himm : imm13Field w = imm := Instr.j.inj ((decodesI13_j fc w hop).symm.trans h)
    rw [← wordI13_fields w, hop, himm]
  · rintro rfl
    rw [decodesI13_j fc _ (opField_wordI13 _ _), imm13Field_wordI13]

/-- The word of a j as a number: the opcode above the 13 bits of the immediate (R74). -/
theorem wordI13_j_toNat (imm : Imm13) : (wordI13 0b010 imm).toNat = 0x4000 + imm.toNat := by
  change (0b010#3 ++ imm).toNat = 2 <<< 13 + imm.toNat
  rw [BitVec.toNat_append, Nat.shiftLeft_add_eq_or_of_lt imm.isLt]
  rfl

end Sys2Proof
end

section
/-! SUPPORT. The control transfers: their equations, their targets as numbers, and the one shape of their next states
(42_control.md R99 to R103). -/

namespace Sys2Proof.Machine

open Sys2Proof.Claims

/-! Targets. -/

theorem aluEq_iff {a b : Word} : aluEq a b = true ↔ a = b := decide_eq_true_iff

/-- Zero extension keeps the value (R76). -/
theorem zext16_toNat (imm : Imm13) : (zext16 imm).toNat = imm.toNat :=
  BitVec.toNat_setWidth_of_le (by decide)

theorem State.nextPc_eq_ofNat (s : State) : s.nextPc = BitVec.ofNat 16 (s.pc.toNat + 1) :=
  aluAdd_eq_ofNat s.pc 1

/-- The target of a taken jeq, modulo 65536 (R101). -/
theorem State.branchTarget_toNat (s : State) (imm : Imm7) :
    (s.nextPc + sext16 imm).toNat = (s.pc.toNat + 1 + sext imm) % 65536 := by
  rw [BitVec.toNat_add, State.nextPc_toNat, sext16_toNat, Nat.mod_add_mod]

/-! The instructions' equations. -/

section exec
variable {rA rB : RegIdx} {imm : Imm7} {s : State}

theorem exec_jr (rA : RegIdx) (s : State) : exec (.jr rA) s = .next (s.setPc (s.readReg rA)) := rfl
theorem exec_j (imm : Imm13) (s : State) : exec (.j imm) s = .next (s.setPc (zext16 imm)) := rfl
theorem exec_jal (imm : Imm13) (s : State) :
    exec (.jal imm) s = .next ((s.writeReg linkReg s.nextPc).setPc (zext16 imm)) := rfl
theorem exec_undefined (s : State) : exec .undefined s = .next s.advance := rfl

theorem exec_jeq_of_eq (h : s.readReg rA = s.readReg rB) :
    exec (.jeq rA rB imm) s = .next (s.setPc (s.nextPc + sext16 imm)) := by
  rw [exec_jeq, if_pos (aluEq_iff.mpr h)]

theorem exec_jeq_of_ne (h : s.readReg rA ≠ s.readReg rB) :
    exec (.jeq rA rB imm) s = .next s.advance := by
  rw [exec_jeq, if_neg (mt aluEq_iff.mp h), State.advance]

end exec

/-- An instruction that ends with a pc write has the pc as its only result. -/
theorem jumpResult_of_setPc {i : Instr} {s : State} {v : Word} {n : Nat}
    (hexec : exec i s = .next (s.setPc v)) (hv : v.toNat = n % 65536) : JumpResult i s n :=
  ⟨_, hexec, hv, s.readReg_setPc v, s.readMem_setPc v, ⟨s.setPc_caches v, s.setPc_trace v⟩, s.setPc_halted v⟩

/-- The instructions that write neither a register nor memory (R16). -/
theorem instr_of_no_write {i : Instr} (hreg : i.writes = none) (hsw : ∀ rA rB imm, i ≠ .sw rA rB imm) :
    (∃ rA, i = .jr rA) ∨ (∃ imm, i = .j imm) ∨ (∃ rA rB imm, i = .jeq rA rB imm) ∨ i = .undefined := by
  cases i with
  | jr rA => exact .inl ⟨rA, rfl⟩
  | j imm => exact .inr (.inl ⟨imm, rfl⟩)
  | jeq rA rB imm => exact .inr (.inr (.inl ⟨rA, rB, imm, rfl⟩))
  | undefined => exact .inr (.inr (.inr rfl))
  | sw rA rB imm => exact absurd rfl (hsw rA rB imm)
  | _ => cases hreg

end Sys2Proof.Machine
end

section
/-! SUPPORT. The halt test by the reading of the pc, and the steps that meet the sentinel or follow it (R104, R105). -/

namespace Sys2Proof.Machine

variable {w pc : Word}

theorem low13_toNat (v : Word) : (low13 v).toNat = v.toNat % 8192 := BitVec.toNat_setWidth 13 v

theorem isHalt_noMatch_iff : isHalt .noMatch w pc = true ↔ pc.toNat < 8192 ∧ w.toNat = 0x4000 + pc.toNat :=
  decide_eq_true_iff

theorem isHalt_low13_iff : isHalt .low13 w pc = true ↔ w.toNat = 0x4000 + pc.toNat % 8192 := by
  rw [← low13_toNat]
  exact decide_eq_true_iff

/-- Below 8192 the two readings of the halt test agree (R104). -/
theorem isHalt_iff_of_lt (hpc : pc.toNat < 8192) (policy : HaltHighPc) :
    isHalt policy w pc = true ↔ w.toNat = 0x4000 + pc.toNat := by
  cases policy with
  | noMatch => rw [isHalt_noMatch_iff, and_iff_right hpc]
  | low13 => rw [isHalt_low13_iff, Nat.mod_eq_of_lt hpc]

/-- Below 8192 the sentinel's number is that of the one word that decodes to the j to the pc. -/
theorem eq_sentinel_iff_decodes_to_j (fc : FuncCodes) (hpc : pc.toNat < 8192) :
    w.toNat = 0x4000 + pc.toNat ↔ ∃ imm, decodeWith fc w = .j imm ∧ imm.toNat = pc.toNat := by
  simp only [decodeWith_eq_j_iff]
  constructor
  · intro hw
    have hlow : (low13 pc).toNat = pc.toNat := by rw [low13_toNat, Nat.mod_eq_of_lt hpc]
    refine ⟨low13 pc, BitVec.eq_of_toNat_eq ?_, hlow⟩
    rw [wordI13_j_toNat, hlow, hw]
  · rintro ⟨imm, rfl, himm⟩
    rw [wordI13_j_toNat, himm]

/-- A step that meets the sentinel has the halt effect alone (R105). -/
theorem stepWith_of_isHalt {p : Params} {s : State} (hrun : s.halted = false)
    (hsent : isHalt p.haltHighPc s.fetch s.pc = true) : stepWith p s = .next s.halt := by
  simp [stepWith, hrun, hsent]

/-- A halted core has no step, under any parameters (R27, R28). -/
theorem not_completes_of_halted {s : State} (p : Params) (h : s.halted = true) : ¬ Completes (stepWith p s) := by
  rintro ⟨t, ht⟩
  have hfault : stepWith p s = .fault .halted := if_pos h
  cases hfault.symm.trans ht

end Sys2Proof.Machine
end

section
/-! The statements of 42_control.md about control transfer and halt. -/

namespace Sys2Proof.Proofs

open Sys2Proof.Machine Sys2Proof.Claims

/-- Settles O23, by the shapes of a next state: those with a register or memory write advance the pc, jal apart; of the
instructions that write neither, only undefined and a jeq that is not taken are left. -/
theorem everyOtherInstructionGoesOnToTheNextPc : Obligations.EveryOtherInstructionGoesOnToTheNextPc := by
  intro i s hjr hj hjal hjeq
  rcases exec_cases i s with ⟨_, _, _, _, _, he⟩ | ⟨_, _, _, _, he⟩ | ⟨_, _, _, _, he⟩ | ⟨_, hreg, hsw, _⟩ |
    ⟨imm, hi, _⟩
  · exact ⟨_, he, s.nextPc_toNat⟩
  · exact ⟨_, he, s.nextPc_toNat⟩
  · exact ⟨_, he, s.nextPc_toNat⟩
  · rcases instr_of_no_write hreg hsw with ⟨rA, hi⟩ | ⟨imm, hi⟩ | ⟨rA, rB, imm, rfl⟩ | rfl
    · exact absurd hi (hjr rA)
    · exact absurd hi (hj imm)
    · exact ⟨_, exec_jeq_of_ne (hjeq rA rB imm rfl), s.nextPc_toNat⟩
    · exact ⟨_, exec_undefined s, s.nextPc_toNat⟩
  · exact absurd hi (hjal imm)

/-- Settles O24: below 8192 the readings agree and one word decodes to the j to the pc; from 8192 on by each reading. -/
theorem haltSentinelIsTheJumpToItself : Obligations.HaltSentinelIsTheJumpToItself := by
  intro fc w pc
  refine ⟨fun hlow policy => ?_, fun hhigh => ⟨?_, isHalt_low13_iff⟩⟩
  · have hsent := isHalt_iff_of_lt (w := w) hlow policy
    exact ⟨hsent, hsent.trans (eq_sentinel_iff_decodes_to_j fc hlow)⟩
  · rw [← Bool.not_eq_true, isHalt_noMatch_iff]
    exact fun h => absurd h.1 (Nat.not_lt.mpr hhigh)

/-- Settles O18: the pc write of jr takes all 16 bits of the register. -/
theorem jrJumpsToTheFullRegister : Obligations.JrJumpsToTheFullRegister := by
  refine ⟨fun fc hd w hop hfn => decodeWith_of_jr hd hop hfn, fun rA s => ?_⟩
  exact jumpResult_of_setPc (exec_jr rA s) (Nat.mod_eq_of_lt (s.readReg rA).isLt).symm

/-- Settles O19, by whether the registers are equal. -/
theorem jeqBranchesRelativeToTheNextPc : Obligations.JeqBranchesRelativeToTheNextPc := by
  refine ⟨decodesRRI_jeq, fun rA rB imm s => ?_⟩
  split_ifs with h
  · exact jumpResult_of_setPc (exec_jeq_of_eq h) (s.branchTarget_toNat imm)
  · exact jumpResult_of_setPc (exec_jeq_of_ne h) s.nextPc_toNat

/-- Settles O20: the pc write of j takes the zero-extended immediate, which is below 65536. -/
theorem jumpsToTheImmediate : Obligations.JumpsToTheImmediate := by
  refine ⟨decodesI13_j, fun imm s => jumpResult_of_setPc (exec_j imm s) ?_⟩
  rw [← zext16_toNat, Nat.mod_eq_of_lt (zext16 imm).isLt]

/-- Settles O21: the link is the one register write, made before the pc is set. -/
theorem jalLinksInRegister7 : Obligations.JalLinksInRegister7 := by
  refine ⟨decodesI13_jal, fun imm s => ⟨_, exec_jal imm s, fun r => ?_, zext16_toNat imm, fun _ => rfl, ⟨rfl, rfl⟩, rfl⟩⟩
  rw [State.readReg_setPc, State.readReg_writeReg, State.nextPc_eq_ofNat, linkReg]

/-- Settles O25: the step has the halt effect alone, and the core it leaves is halted. -/
theorem haltChangesOnlyTheHaltedBit : Obligations.HaltChangesOnlyTheHaltedBit := by
  intro p s hrun hsent
  exact ⟨_, stepWith_of_isHalt hrun hsent, s.halt_halted, s.halt_pc, s.readReg_halt, s.readMem_halt,
    ⟨s.halt_caches, s.halt_trace⟩, not_completes_of_halted p s.halt_halted⟩

end Sys2Proof.Proofs
end

section
/-! The statement of 43_undefined.md about the undefined instruction. -/

namespace Sys2Proof.Proofs

open Sys2Proof.Machine Sys2Proof.Claims

/-- Settles O22: opcode 000 goes by the function code alone, which is none of the six; and the one effect is the pc write. -/
theorem undefinedOnlyAdvancesThePc : Obligations.UndefinedOnlyAdvancesThePc := by
  refine ⟨fun fc w hop hfn => ?decodes, fun s => ?advances⟩
  case decodes => rw [decodeWith_of_op_zero hop, decodeFn_of_not_mem_codes hfn]
  case advances => exact jumpResult_of_setPc (exec_undefined s) s.nextPc_toNat

end Sys2Proof.Proofs
end

section
/-! SUPPORT. Which steps complete (10_state.md R27, R28; 60_exceptions.md R108), and what the host reads once the run is over
(R118, R119). -/

namespace Sys2Proof.Machine

/-- R108: each of the shapes that exec gives is a next state. -/
theorem exec_completes (i : Instr) (s : State) : Completes (exec i s) := by
  rcases exec_cases i s with ⟨_, _, _, _, _, he⟩ | ⟨_, _, _, _, he⟩ | ⟨_, _, _, _, he⟩ | ⟨_, _, _, he⟩ | ⟨_, _, he⟩
  all_goals exact ⟨_, he⟩

/-- A running core always has a step (R28, R108). -/
theorem stepWith_completes (p : Params) {s : State} (hrun : s.halted = false) : Completes (stepWith p s) := by
  rcases stepWith_cases p s with ⟨hhalt, _⟩ | ⟨_, _, he⟩ | ⟨_, _, he⟩
  · cases hrun.symm.trans hhalt
  · exact ⟨_, he⟩
  · rw [he]
    exact exec_completes _ s

/-- The step of a halted core is the model's fault (R27). -/
theorem stepWith_of_halted (p : Params) {s : State} (h : s.halted = true) : stepWith p s = .fault .halted := if_pos h

/-- Before the halt there is no readout (R119). -/
theorem State.readout_of_running {s : State} (h : s.halted = false) : s.readout = none := by
  simp [State.readout, h]

/-- The readout that the halt effect makes available (R105, R119). -/
theorem State.readout_halt (s : State) :
    s.halt.readout =
      some { regs := Vector.ofFn fun r : Fin 8 => s.readReg (BitVec.ofNat 3 r.val), pc := s.pc, mem := s.mem } := rfl

end Sys2Proof.Machine
end

section
/-! SUPPORT. Which configurations are accepted (R48, R112), what an image leaves in memory (R119, R123), and the three answers
of a boot by these two (R126). -/

namespace Sys2Proof.Machine

open Sys2Proof.Claims

/-! The configuration. -/

/-- R48's condition on a triple, on the integers of a configuration. -/
def IntsLegal (x y z : Int) : Prop := 1 ≤ x ∧ 1 ≤ y ∧ 1 ≤ z ∧ x % (y * z) = 0

/-- The condition on a triple is the same read on natural numbers and on integers (R48). -/
theorem Triple.legal_iff_intsLegal (t : Triple) : t.Legal ↔ IntsLegal t.size t.assoc t.blockSize := by
  unfold Triple.Legal IntsLegal
  norm_cast

/-- Three integers give a triple exactly when they are legal; a legal triple keeps its integers, and the guard of positive
integers refuses the others (R48, R112). -/
theorem Triple.ofInts?_eq_none_iff {x y z : Int} : Triple.ofInts? x y z = none ↔ ¬ IntsLegal x y z := by
  constructor
  · rintro hnone ⟨hx, hy, hz, hmod⟩
    lift x to Nat using by omega
    lift y to Nat using by omega
    lift z to Nat using by omega
    have hlegal : Triple.Legal ⟨x, y, z⟩ := (Triple.legal_iff_intsLegal _).mpr ⟨hx, hy, hz, hmod⟩
    have hsome : Triple.ofInts? x y z = some ⟨x, y, z⟩ := by
      simp only [Triple.ofInts?, Int.toNat_natCast, if_pos hlegal, if_pos (And.intro hx (And.intro hy hz))]
    cases hsome.symm.trans hnone
  · intro hill
    by_contra hsome
    obtain ⟨t, ht⟩ := Option.ne_none_iff_exists'.mp hsome
    obtain ⟨hlegal, rfl, rfl, rfl⟩ := Triple.ofInts?_eq_some ht
    exact hill ((Triple.legal_iff_intsLegal t).mp hlegal)

/-- Three integers are refused exactly when they give no triple (R112). -/
theorem configure_three_eq_none_iff {x y z : Int} :
    configure (some [x, y, z]) = none ↔ ¬ IntsLegal x y z :=
  Option.map_eq_none_iff.trans Triple.ofInts?_eq_none_iff

/-- Six integers are refused exactly when one of their two threes gives no triple (R112). -/
theorem configure_six_eq_none_iff {x y z x' y' z' : Int} :
    configure (some [x, y, z, x', y', z']) = none ↔ ¬ (IntsLegal x y z ∧ IntsLegal x' y' z') := by
  rw [not_and_or, ← Triple.ofInts?_eq_none_iff, ← Triple.ofInts?_eq_none_iff]
  cases h : Triple.ofInts? x y z with
  | none => simp [configure, h]
  | some t => cases h' : Triple.ofInts? x' y' z' <;> simp [configure, h, h']

/-- Every other count is refused: the accepted configurations hold 3 or 6 integers (R112). -/
theorem configure_eq_none_of_count {ints : List Int} (h3 : ints.length ≠ 3) (h6 : ints.length ≠ 6) :
    configure (some ints) = none := by
  by_contra hsome
  obtain ⟨hier, hc⟩ := Option.ne_none_iff_exists'.mp hsome
  rcases configure_cases hc with ⟨⟨⟩, -⟩ | ⟨_, _, _, _, ⟨⟩, -⟩ | ⟨_, _, _, _, _, _, _, _, ⟨⟩, -⟩
  · exact h3 rfl
  · exact h6 rfl

/-! The image. -/

/-- A memory cell after MemWrite(a, 1, v), in a memory of the canonical form (R36). -/
theorem Memory.read_write {m : Memory} (h : m.wf = true) (a b : Addr) (v : Word) :
    (m.write a v).read b = if b = a then v else m.read b :=
  State.readMem_writeMem (s := { State.reset with mem := m }) a b v h

/-- A legal image cell's address, as an Addr, is that of cell a exactly when the two numbers are the same. -/
theorem imageCell_addr_eq_iff {cell : Int × Int} (h : ImageCellLegal cell) (a : Addr) :
    a = BitVec.ofNat 13 cell.1.toNat ↔ cell.1 = (a.toNat : Int) := by
  obtain ⟨⟨hlow, hhigh⟩, -⟩ := h
  rw [← BitVec.toNat_inj, BitVec.toNat_ofNat, Nat.mod_eq_of_lt (by omega)]
  omega

/-- A legal image cell's value is not reduced when it is written as a word. -/
theorem imageCell_value_toNat {cell : Int × Int} (h : ImageCellLegal cell) :
    ((BitVec.ofNat 16 cell.2.toNat).toNat : Int) = cell.2 := by
  obtain ⟨-, hlow, hhigh⟩ := h
  rw [BitVec.toNat_ofNat, Nat.mod_eq_of_lt (by omega)]
  omega

/-- The value an image gives for an address, cell by cell: what the rest gives, or else the first cell's own. -/
theorem imageValue_cons (cell : Int × Int) (rest : List (Int × Int)) (a : Addr) :
    imageValue (cell :: rest) a =
      (imageValue rest a).or (if cell.1 = (a.toNat : Int) then some cell.2 else none) := by
  rw [imageValue]
  cases imageValue rest a <;> rfl

theorem loadFrom_cons_of_legal {cell : Int × Int} (h : ImageCellLegal cell) (m : Memory) (rest : List (Int × Int)) :
    loadFrom m (cell :: rest) =
      loadFrom (m.write (BitVec.ofNat 13 cell.1.toNat) (BitVec.ofNat 16 cell.2.toNat)) rest := if_pos h

/-- One cell out of range refuses the whole image (R119, D16). -/
theorem loadFrom_eq_none {image : List (Int × Int)} (m : Memory) (h : ∃ cell ∈ image, ¬ ImageCellLegal cell) :
    loadFrom m image = none := by
  induction image generalizing m with
  | nil => simp at h
  | cons cell rest ih =>
    by_cases hcell : ImageCellLegal cell
    · rw [loadFrom_cons_of_legal hcell]
      obtain ⟨bad, hmem, hbad⟩ := h
      rcases List.mem_cons.mp hmem with rfl | hrest
      · exact absurd hcell hbad
      · exact ih _ ⟨bad, hrest, hbad⟩
    · exact if_neg hcell

/-- An image in range is loaded: every cell holds the value the image gives for it, or what it held before (R119). -/
theorem loadFrom_read {image : List (Int × Int)} {m : Memory} (hm : m.wf = true)
    (h : ∀ cell ∈ image, ImageCellLegal cell) :
    ∃ m', loadFrom m image = some m' ∧
      ∀ a : Addr, ((m'.read a).toNat : Int) = (imageValue image a).getD (m.read a).toNat := by
  induction image generalizing m with
  | nil => exact ⟨m, rfl, fun _ => rfl⟩
  | cons cell rest ih =>
    obtain ⟨hcell, hrest⟩ := List.forall_mem_cons.mp h
    obtain ⟨m', hload, hread⟩ := ih (Memory.write_wf _ (BitVec.ofNat 16 cell.2.toNat) hm) hrest
    refine ⟨m', (loadFrom_cons_of_legal hcell m rest).trans hload, fun a => ?_⟩
    rw [hread a, imageValue_cons, Memory.read_write hm]
    simp only [imageCell_addr_eq_iff hcell]
    cases imageValue rest a with
    | some v => rfl
    | none =>
      split_ifs
      · exact imageCell_value_toNat hcell
      · rfl

/-! The boot. -/

/-- A boot answers a configuration error exactly when configure refuses, whatever the image (R112). -/
theorem boot_eq_configError_iff {config : Option (List Int)} {image : List (Int × Int)} :
    boot config image = .refused .configError ↔ configure config = none := by
  unfold boot
  cases configure config with
  | none => simp
  | some hier => cases loadImage image <;> simp

/-- Under an accepted configuration a refused image is an image error (R119). -/
theorem boot_of_image_refused {config : Option (List Int)} {image : List (Int × Int)} {hier : Hierarchy}
    (hc : configure config = some hier) (hm : loadImage image = none) : boot config image = .refused .imageError := by
  simp only [boot, hc, hm]

/-- Under an accepted configuration a loaded image boots (R126). -/
theorem boot_of_image_loaded {config : Option (List Int)} {image : List (Int × Int)} {hier : Hierarchy} {m : Memory}
    (hc : configure config = some hier) (hm : loadImage image = some m) :
    boot config image = .next { State.reset with mem := m, caches := hier } := by
  simp only [boot, hc, hm]

end Sys2Proof.Machine
end

section
/-! The statements of 60_exceptions.md. -/

namespace Sys2Proof.Proofs

open Sys2Proof.Machine Sys2Proof.Claims

/-- Settles O33: every shape of exec's answer is a next state, and so is every step of a running core. -/
theorem nothingFaults : Obligations.NothingFaults :=
  ⟨exec_completes, fun p _ hrun => stepWith_completes p hrun⟩

/-- Settles O55: a boot's configuration error is configure's refusal, which is by count and then by triple. -/
theorem configurationIsRefusedExactlyWhenIllegal : Obligations.ConfigurationIsRefusedExactlyWhenIllegal := by
  refine ⟨fun image => ⟨?accepted, fun s hs => ?noLevel⟩, ?count, ?three, ?six⟩
  case accepted =>
    rw [ne_eq, boot_eq_configError_iff]
    exact Option.some_ne_none _
  case noLevel =>
    obtain ⟨hier, m, hc, -, rfl⟩ := boot_eq_next hs
    cases hc
    rfl
  case count =>
    exact fun ints image h3 h6 => boot_eq_configError_iff.mpr (configure_eq_none_of_count h3 h6)
  case three => exact fun x y z image => boot_eq_configError_iff.trans configure_three_eq_none_iff
  case six => exact fun x y z x' y' z' image => boot_eq_configError_iff.trans configure_six_eq_none_iff

/-- Settles O56: the load starts from the empty memory, in which every cell reads 0. -/
theorem imageIsLoadedOrRefused : Obligations.ImageIsLoadedOrRefused := by
  intro config image hconfig
  obtain ⟨hier, hc⟩ := Option.ne_none_iff_exists'.mp (mt boot_eq_configError_iff.mpr hconfig)
  refine ⟨fun hbad => boot_of_image_refused hc (loadFrom_eq_none [] hbad), fun hlegal => ?_⟩
  obtain ⟨m, hload, hread⟩ := loadFrom_read (m := []) rfl hlegal
  exact ⟨_, boot_of_image_loaded hc hload, hread⟩

/-- Settles O58: the step that meets the sentinel has the halt effect alone, and the readout reads the state it leaves. -/
theorem readoutGivesTheFinalState : Obligations.ReadoutGivesTheFinalState := by
  intro p s hrun
  refine ⟨State.readout_of_running hrun, fun hsent => ⟨_, _, stepWith_of_isHalt hrun hsent, s.readout_halt, ?_⟩⟩
  exact ⟨fun r => Vector.getElem_ofFn r.isLt, rfl, fun _ => rfl⟩

/-- Settles O27: the step control tests the halted bit first, and answers the fault, which is no next state. -/
theorem haltedCoreHasNoStep : Obligations.HaltedCoreHasNoStep :=
  fun p _ h => ⟨not_completes_of_halted p h, stepWith_of_halted p h⟩

end Sys2Proof.Proofs
end

section
/-! SUPPORT. The round trips of decoder and encoder, format by format, and the words of jr and of `undefined` (30_encoding.md
R72 to R82). -/

namespace Sys2Proof

open Sys2Proof.Claims

variable {fc : FuncCodes}

/-! From the encoder's side: an encoded instruction has its opcode and its function code, so the decoder reads its fields. -/

theorem decodeWith_wordRRR {code : FuncCodes → Fn} {i : RegIdx → RegIdx → RegIdx → Instr} (h : DecodesRRR code i)
    (hd : fc.Distinct) (rA rB rC : RegIdx) : decodeWith fc (wordRRR (code fc) rA rB rC) = i rA rB rC := by
  rw [h fc hd _ (opField_wordRRR _ _ _ _) (fnField_wordRRR _ _ _ _), rAField_wordRRR, rBField_wordRRR, rCField_wordRRR]

theorem decodeWith_wordRRI {op : Opcode} {i : RegIdx → RegIdx → Imm7 → Instr} (h : DecodesRRI op i) (rA rB : RegIdx)
    (imm : Imm7) : decodeWith fc (wordRRI op rA rB imm) = i rA rB imm := by
  rw [h fc _ (opField_wordRRI _ _ _ _), rAField_wordRRI, rBField_wordRRI, imm7Field_wordRRI]

theorem decodeWith_wordI13 {op : Opcode} {i : Imm13 → Instr} (h : DecodesI13 op i) (imm : Imm13) :
    decodeWith fc (wordI13 op imm) = i imm := by
  rw [h fc _ (opField_wordI13 _ _), imm13Field_wordI13]

theorem decodeWith_wordRRR_jr (hd : fc.Distinct) (rA : RegIdx) : decodeWith fc (wordRRR fc.jr rA 0 0) = .jr rA := by
  rw [decodeWith_of_jr hd (opField_wordRRR _ _ _ _) (fnField_wordRRR _ _ _ _), rAField_wordRRR]

/-- The encoder's undefined word has a function code that is none of the six, distinct or not (R82). -/
theorem decodeWith_wordRRR_unusedFn (fc : FuncCodes) : decodeWith fc (wordRRR fc.unusedFn 0 0 0) = .undefined := by
  have hspare : fnField (wordRRR fc.unusedFn 0 0 0) ∉ fc.codes := by
    rw [fnField_wordRRR]
    exact fc.unusedFn_not_mem
  rw [decodeWith_of_op_zero (opField_wordRRR _ _ _ _), decodeFn_of_not_mem_codes hspare]

/-! From the word's side: the fields the decoder keeps rebuild the word. -/

variable {w : Word}

theorem wordRRR_of_fields {f : Fn} (hop : opField w = 0b000) (hfn : fnField w = f) :
    wordRRR f (rAField w) (rBField w) (rCField w) = w := by
  rw [← hfn, wordRRR_fields hop]

theorem wordRRI_of_fields {op : Opcode} (hop : opField w = op) :
    wordRRI op (rAField w) (rBField w) (imm7Field w) = w := by
  rw [← hop, wordRRI_fields]

theorem wordI13_of_fields {op : Opcode} (hop : opField w = op) : wordI13 op (imm13Field w) = w := by
  rw [← hop, wordI13_fields]

/-- The mask 0xFC0F clears w[9:4] and keeps the rest of the word (R81). -/
theorem jrMask_bit : ∀ i, i < 16 → (0xFC0F#16).getLsbD i = decide (i < 4 ∨ 10 ≤ i) := by decide

/-- Under the mask an RRR word has rB = rC = 0. -/
theorem wordRRR_and_jrMask (f : Fn) (rA rB rC : RegIdx) : wordRRR f rA rB rC &&& 0xFC0F#16 = wordRRR f rA 0 0 := by
  apply Word.eq_of_bits
  intro i hi
  rw [BitVec.getLsbD_and, jrMask_bit i hi, wordRRR_bit, wordRRR_bit]
  by_cases h4 : i < 4
  · simp [h4]
  by_cases h10 : i < 10
  · simp [h4, h10]
  · simp [h4, h10, show ¬ i < 7 by omega, show 10 ≤ i by omega]

/-- A word of jr up to w[9:4] is the encoder's (R81). -/
theorem wordRRR_jr_of_fields (hop : opField w = 0b000) (hfn : fnField w = fc.jr) :
    wordRRR fc.jr (rAField w) 0 0 = w &&& 0xFC0F#16 := by
  rw [← wordRRR_and_jrMask fc.jr (rAField w) (rBField w) (rCField w), wordRRR_of_fields hop hfn]

/-- A word has the opcode of the instruction it decodes to (R77). -/
theorem opField_of_decodeWith {i : Instr} (h : decodeWith fc w = i) : opField w = Laws.opcodeOf i := by
  rw [← h, opcodeOf_decodeWith]

/-- The function-code decoder gives jr only for jr's code, and then keeps rA alone (R81). -/
theorem of_decodeFn_eq_jr {rA : RegIdx} (h : decodeFn fc w = .jr rA) : fnField w = fc.jr ∧ rAField w = rA := by
  rcases decodeFn_cases fc w with ⟨_, he⟩ | ⟨_, he⟩ | ⟨_, he⟩ | ⟨_, he⟩ | ⟨_, he⟩ | ⟨hfn, he⟩ | ⟨_, he⟩
  case inr.inr.inr.inr.inr.inl => exact ⟨hfn, Instr.jr.inj (he.symm.trans h)⟩
  all_goals cases he.symm.trans h

/-- The function-code decoder gives `undefined` exactly for the codes that are none of the six (R82). -/
theorem decodeFn_eq_undefined_iff : decodeFn fc w = .undefined ↔ fnField w ∉ fc.codes := by
  refine ⟨fun h hmem => ?_, decodeFn_of_not_mem_codes⟩
  obtain ⟨_, _, _, he⟩ := decodeFn_of_mem_codes hmem
  simp [h] at he

theorem decodeWith_eq_undefined_iff : decodeWith fc w = .undefined ↔ opField w = 0b000 ∧ fnField w ∉ fc.codes := by
  constructor
  · intro h
    have hop : opField w = 0b000 := opField_of_decodeWith h
    rw [decodeWith_of_op_zero hop] at h
    exact ⟨hop, decodeFn_eq_undefined_iff.mp h⟩
  · rintro ⟨hop, hfn⟩
    rw [decodeWith_of_op_zero hop, decodeFn_eq_undefined_iff]
    exact hfn

/-- The ten values that are no default function code (R82, D1). -/
theorem not_mem_defaultCodes_iff : ∀ f : Fn,
    f ∉ FuncCodes.default.codes ↔ f ∈ ([5, 6, 7, 9, 10, 11, 12, 13, 14, 15] : List Fn) := by decide

end Sys2Proof

namespace Sys2Proof.Machine

/-- Below 64 the top bit is clear and the extension is by zeros; from 64 on it is by the nine ones of 65408 (R75). -/
theorem sext16_eq_signExtend (v : Imm7) : sext16 v = v.signExtend 16 := by
  have hv := v.isLt
  apply BitVec.eq_of_toNat_eq
  rw [sext16_toNat, BitVec.toNat_signExtend, BitVec.toNat_setWidth_of_le (by decide), BitVec.msb_eq_decide, Claims.sext]
  by_cases hlow : v.toNat < 64
  · simp [hlow]
  · simp [hlow, show 64 ≤ v.toNat by omega]

end Sys2Proof.Machine
end

section
/-! The statements of 30_encoding.md about the decoder and the encoder. -/

namespace Sys2Proof.Proofs

open Sys2Proof.Machine Sys2Proof.Claims

/-- Settles O1, instruction by instruction: the encoded word has the format's fields, and the decoder reads them. -/
theorem decodeOfEncodeIsTheInstruction : Obligations.DecodeOfEncodeIsTheInstruction := by
  intro fc hd i
  cases i with
  | add rA rB rC => exact decodeWith_wordRRR decodesRRR_add hd rA rB rC
  | sub rA rB rC => exact decodeWith_wordRRR decodesRRR_sub hd rA rB rC
  | or rA rB rC => exact decodeWith_wordRRR decodesRRR_or hd rA rB rC
  | and rA rB rC => exact decodeWith_wordRRR decodesRRR_and hd rA rB rC
  | slt rA rB rC => exact decodeWith_wordRRR decodesRRR_slt hd rA rB rC
  | jr rA => exact decodeWith_wordRRR_jr hd rA
  | addi rA rB imm => exact decodeWith_wordRRI decodesRRI_addi rA rB imm
  | j imm => exact decodeWith_wordI13 decodesI13_j imm
  | jal imm => exact decodeWith_wordI13 decodesI13_jal imm
  | lw rA rB imm => exact decodeWith_wordRRI decodesRRI_lw rA rB imm
  | sw rA rB imm => exact decodeWith_wordRRI decodesRRI_sw rA rB imm
  | jeq rA rB imm => exact decodeWith_wordRRI decodesRRI_jeq rA rB imm
  | slti rA rB imm => exact decodeWith_wordRRI decodesRRI_slti rA rB imm
  | undefined => exact decodeWith_wordRRR_unusedFn fc

/-- Settles O2, opcode by opcode: the fields the decoder keeps rebuild the word, and jr's rebuild it under the mask. -/
theorem encodeOfDecodeKeepsEveryUsedBit : Obligations.EncodeOfDecodeKeepsEveryUsedBit := by
  intro fc _ w
  rcases Opcode.cases (opField w) with h | h | h | h | h | h | h | h
  · rw [decodeWith_of_op_zero h]
    rcases decodeFn_cases fc w with ⟨hf, he⟩ | ⟨hf, he⟩ | ⟨hf, he⟩ | ⟨hf, he⟩ | ⟨hf, he⟩ | ⟨hf, he⟩ | ⟨hf, he⟩ <;> rw [he]
    case inr.inr.inr.inr.inr.inl => exact wordRRR_jr_of_fields h hf
    case inr.inr.inr.inr.inr.inr => exact ⟨h, hf⟩
    all_goals exact wordRRR_of_fields h hf
  · rw [decodesRRI_addi fc w h]
    exact wordRRI_of_fields h
  · rw [decodesI13_j fc w h]
    exact wordI13_of_fields h
  · rw [decodesI13_jal fc w h]
    exact wordI13_of_fields h
  · rw [decodesRRI_lw fc w h]
    exact wordRRI_of_fields h
  · rw [decodesRRI_sw fc w h]
    exact wordRRI_of_fields h
  · rw [decodesRRI_jeq fc w h]
    exact wordRRI_of_fields h
  · rw [decodesRRI_slti fc w h]
    exact wordRRI_of_fields h

/-- Settles O4: jr has opcode 000, under which the function code alone decides. -/
theorem jrIgnoresItsUnusedFields : Obligations.JrIgnoresItsUnusedFields := by
  intro fc hd w rA
  constructor
  · intro h
    have hop : opField w = 0b000 := opField_of_decodeWith h
    rw [decodeWith_of_op_zero hop] at h
    exact ⟨hop, of_decodeFn_eq_jr h⟩
  · rintro ⟨hop, hfn, rfl⟩
    exact decodeWith_of_jr hd hop hfn

/-- Settles O5: `undefined` has opcode 000, under which it is the answer to the codes that are none of the six. -/
theorem undefinedIsExactlyTheUnassignedCodes : Obligations.UndefinedIsExactlyTheUnassignedCodes := by
  refine ⟨fun fc w => decodeWith_eq_undefined_iff, fun w => ?_⟩
  rw [← not_mem_defaultCodes_iff]
  exact decodeWith_eq_undefined_iff

/-- Settles O6, word by word. -/
theorem vectorWordsDecode : Obligations.VectorWordsDecode := by
  unfold Obligations.VectorWordsDecode
  decide

/-- Settles O7: the extension's value, and the case split on the top bit. -/
theorem signExtensionIsTwosComplement : Obligations.SignExtensionIsTwosComplement :=
  fun v => ⟨sext16_toNat v, sext16_eq_signExtend v⟩

end Sys2Proof.Proofs
end

section
/-! SUPPORT. What a step does to the caches and the trace, and what it keeps: the configuration, the records already emitted,
and every part of the invariant (10_state.md R23, R28; 60_exceptions.md R119). -/

namespace Sys2Proof.Machine

variable {p : Params} {i : Instr} {s t : State}

/-- A step of a running core that fetches no sentinel is exec of the decoded word (R28). -/
theorem stepWith_of_not_isHalt (hrun : s.halted = false) (hsent : isHalt p.haltHighPc s.fetch s.pc = false) :
    stepWith p s = exec (decodeWith p.funcCodes s.fetch) s := by
  simp [stepWith, hrun, hsent]

/-! Caches and trace. -/

/-- From s to t the caches and the trace stay, or they make one access (R66). -/
def AccessesAtMostOnce (s t : State) : Prop :=
  (t.caches = s.caches ∧ t.trace = s.trace) ∨
  ∃ kind a, t.caches = (s.caches.access kind a s.pc).1 ∧ t.trace = s.trace ++ (s.caches.access kind a s.pc).2

theorem exec_accessesAtMostOnce (h : exec i s = .next t) : AccessesAtMostOnce s t := by
  rcases instr_lw_or_sw_or_neither i with ⟨rA, rB, imm, rfl⟩ | ⟨rA, rB, imm, rfl⟩ | ⟨hlw, hsw⟩
  · cases (exec_lw rA rB imm s).symm.trans h
    exact .inr ⟨.load, s.dataAddr rA imm, rfl, rfl⟩
  · cases (exec_sw rA rB imm s).symm.trans h
    exact .inr ⟨.store, s.dataAddr rA imm, rfl, rfl⟩
  · exact .inl (exec_caches_of_not_load_store hlw hsw h)

theorem stepWith_accessesAtMostOnce (h : stepWith p s = .next t) : AccessesAtMostOnce s t := by
  rcases stepWith_cases p s with ⟨_, he⟩ | ⟨_, _, he⟩ | ⟨_, _, he⟩
  · cases he.symm.trans h
  · cases he.symm.trans h
    exact .inl ⟨s.halt_caches, s.halt_trace⟩
  · exact exec_accessesAtMostOnce (he.symm.trans h)

/-- An access of the hierarchy leaves each level as it was, or makes that level's access (R62). -/
theorem Hierarchy.mem_levels_access {h : Hierarchy} {kind : AccessKind} {a : Addr} {pc : Word} {c : Cache}
    (hc : c ∈ (h.access kind a pc).1.levels) : ∃ d ∈ h.levels, c = d ∨ c = (d.access kind a).2 := by
  rcases h.access_cases kind a pc with ⟨rfl, he⟩ | ⟨l1, rfl, he⟩ | ⟨l1, l2, rfl, -, he⟩ | ⟨l1, l2, rfl, -, he⟩ <;>
    rw [he] at hc <;> simp only [Hierarchy.levels, List.mem_cons, List.not_mem_nil, or_false] at hc ⊢
  case inr.inl => exact ⟨l1, rfl, .inr hc⟩
  case inr.inr.inl =>
    rcases hc with hc | hc
    · exact ⟨l1, .inl rfl, .inr hc⟩
    · exact ⟨l2, .inr rfl, .inl hc⟩
  case inr.inr.inr =>
    rcases hc with hc | hc
    · exact ⟨l1, .inl rfl, .inr hc⟩
    · exact ⟨l2, .inr rfl, .inr hc⟩

/-- No access changes the configuration of the hierarchy (R23). -/
theorem Hierarchy.access_config (h : Hierarchy) (kind : AccessKind) (a : Addr) (pc : Word) :
    (h.access kind a pc).1.config = h.config := by
  rcases h.access_cases kind a pc with ⟨rfl, he⟩ | ⟨l1, rfl, he⟩ | ⟨l1, l2, rfl, -, he⟩ | ⟨l1, l2, rfl, -, he⟩ <;>
    rw [he] <;> simp [Hierarchy.config, Hierarchy.levels]

/-- An access gives at most one record for each of the two levels (R65). -/
theorem Hierarchy.access_records_length (h : Hierarchy) (kind : AccessKind) (a : Addr) (pc : Word) :
    (h.access kind a pc).2.length ≤ 2 := by
  rcases h.access_cases kind a pc with ⟨-, he⟩ | ⟨l1, -, he⟩ | ⟨l1, l2, -, -, he⟩ | ⟨l1, l2, -, -, he⟩ <;>
    rw [he] <;> simp

theorem stepWith_config (h : stepWith p s = .next t) : t.caches.config = s.caches.config := by
  rcases stepWith_accessesAtMostOnce h with ⟨hcaches, -⟩ | ⟨kind, a, hcaches, -⟩ <;> rw [hcaches]
  exact Hierarchy.access_config _ _ _ _

/-- A step appends at most two records to the trace (R65, R66). -/
theorem stepWith_trace (h : stepWith p s = .next t) : ∃ recs, t.trace = s.trace ++ recs ∧ recs.length ≤ 2 := by
  rcases stepWith_accessesAtMostOnce h with ⟨-, htrace⟩ | ⟨kind, a, -, htrace⟩
  · exact ⟨[], by rw [htrace, List.append_nil], Nat.zero_le 2⟩
  · exact ⟨_, htrace, s.caches.access_records_length kind a s.pc⟩

theorem stepTransaction_of_next (h : stepWith p s = .next t) : stepTransaction p s = .next (stepReport s t) := by
  simp only [stepTransaction, h]

/-- The records of a report are those the step appended (R119). -/
theorem stepReport_records {recs : List Record} (h : t.trace = s.trace ++ recs) : (stepReport s t).records = recs := by
  rw [stepReport, h, List.drop_left]

/-! The invariant. -/

/-- No instruction changes the slot of register 0 (R14). -/
theorem exec_slot_zero (h : exec i s = .next t) : t.regs[0] = s.regs[0] := by
  rcases exec_cases i s with ⟨_, _, _, _, _, he⟩ | ⟨_, _, _, _, he⟩ | ⟨_, _, _, _, he⟩ | ⟨_, _, _, he⟩ | ⟨_, _, he⟩ <;>
    cases he.symm.trans h
  case inr.inr.inl => rfl
  case inr.inr.inr.inl => rfl
  all_goals exact writeRegs_slot_zero s.regs _ _

theorem stepWith_slot_zero (h : stepWith p s = .next t) : t.regs[0] = s.regs[0] := by
  rcases stepWith_cases p s with ⟨_, he⟩ | ⟨_, _, he⟩ | ⟨_, _, he⟩
  · cases he.symm.trans h
  · cases he.symm.trans h
    rfl
  · exact exec_slot_zero (he.symm.trans h)

/-- A step keeps every level in order (R49, R58 to R60). -/
theorem stepWith_caches_inv (hs : ∀ c ∈ s.caches.levels, c.Inv) (h : stepWith p s = .next t) :
    ∀ c ∈ t.caches.levels, c.Inv := by
  rcases stepWith_accessesAtMostOnce h with ⟨hcaches, -⟩ | ⟨kind, a, hcaches, -⟩ <;> rw [hcaches]
  · exact hs
  · intro c hc
    obtain ⟨d, hd, rfl | rfl⟩ := Hierarchy.mem_levels_access hc
    · exact hs _ hd
    · exact (hs d hd).access kind a

theorem State.Inv.stepWith (hs : s.Inv) (h : stepWith p s = .next t) : t.Inv where
  regZero := (stepWith_slot_zero h).trans hs.regZero
  memory  := stepWith_mem_wf hs.memory h
  caches  := stepWith_caches_inv hs.caches h

/-- Loading keeps the memory's canonical form (R119). -/
theorem loadFrom_wf {image : List (Int × Int)} {m m' : Memory} (hm : m.wf = true) (h : loadFrom m image = some m') :
    m'.wf = true := by
  induction image generalizing m with
  | nil =>
    cases h
    exact hm
  | cons cell rest ih =>
    by_cases hcell : ImageCellLegal cell
    · rw [loadFrom_cons_of_legal hcell] at h
      exact ih (Memory.write_wf _ _ hm) h
    · have hnone : loadFrom m (cell :: rest) = none := if_neg hcell
      cases hnone.symm.trans h

/-- Every level of an accepted configuration is a fresh one of a legal triple (R112, R124). -/
theorem configure_levels_inv {config : Option (List Int)} {hier : Hierarchy} (h : configure config = some hier) :
    ∀ c ∈ hier.levels, c.Inv := by
  rcases configure_cases h with ⟨-, rfl⟩ | ⟨_, _, _, t, -, ht, rfl⟩ | ⟨_, _, _, _, _, _, t, t', -, ht, ht', rfl⟩
  · exact fun c hc => (List.not_mem_nil hc).elim
  · exact List.forall_mem_singleton.mpr (Cache.fresh_inv (Triple.ofInts?_eq_some ht).1)
  · exact List.forall_mem_cons.mpr ⟨Cache.fresh_inv (Triple.ofInts?_eq_some ht).1,
      List.forall_mem_singleton.mpr (Cache.fresh_inv (Triple.ofInts?_eq_some ht').1)⟩

/-- The reset registers with a memory of the canonical form and levels in order are a state in order. -/
theorem State.Inv.of_reset {m : Memory} {hier : Hierarchy} (hm : m.wf = true) (hc : ∀ c ∈ hier.levels, c.Inv) :
    State.Inv { State.reset with mem := m, caches := hier } where
  regZero := rfl
  memory  := hm
  caches  := hc

end Sys2Proof.Machine
end

section
/-! SUPPORT. Two states that differ in their caches and traces alone stay so, step by step (R31); and what the fetch after a
store or after a placed word reads (R45, R119). -/

namespace Sys2Proof.Machine

variable {p : Params} {s s' t : State}

theorem SameArchitecture.fetch_eq (h : SameArchitecture s s') : s.fetch = s'.fetch := by
  obtain ⟨-, hpc, hmem, -⟩ := h
  rw [State.fetch, hmem, State.fetchAddr, hpc]
  rfl

theorem SameArchitecture.halt (h : SameArchitecture s s') : SameArchitecture s.halt s'.halt := by
  obtain ⟨hregs, hpc, hmem, -⟩ := h
  exact ⟨hregs, hpc, hmem, rfl⟩

/-- An instruction sees no cache: the register it writes, the pc and memory follow from what it reads, and the rest is kept. -/
theorem SameArchitecture.exec (h : SameArchitecture s s') (hs : s.mem.wf = true) (hs' : s'.mem.wf = true) (i : Instr) :
    ∃ t t', exec i s = .next t ∧ exec i s' = .next t' ∧ SameArchitecture t t' := by
  obtain ⟨hregs, hpc, hmem, hhalted⟩ := h
  obtain ⟨t, t', ht, ht', hagree⟩ := exec_agreeOn i hs hs' (fun r _ => hregs r) ⟨hpc, hmem, nofun⟩
  refine ⟨t, t', ht, ht', fun r => ?_, hagree.pc, hagree.mem, ?_⟩
  · by_cases hr : i.writes = some r
    · exact hagree.reg r hr
    · rw [exec_readReg_of_not_written ht hr, exec_readReg_of_not_written ht' hr, hregs r]
  · rw [exec_halted ht, exec_halted ht', hhalted]

/-- The step of two such states: both fetch the same word, so both halt or both run the same instruction. -/
theorem SameArchitecture.stepWith (h : SameArchitecture s s') (hs : s.mem.wf = true) (hs' : s'.mem.wf = true)
    (hstep : stepWith p s = .next t) : ∃ t', stepWith p s' = .next t' ∧ SameArchitecture t t' := by
  have hfetch := h.fetch_eq
  have ⟨_, hpc, _, hhalted⟩ := h
  rcases stepWith_cases p s with ⟨_, he⟩ | ⟨hrun, hsent, he⟩ | ⟨hrun, hsent, he⟩
  · cases he.symm.trans hstep
  · cases he.symm.trans hstep
    rw [hfetch, hpc] at hsent
    exact ⟨s'.halt, stepWith_of_isHalt (hhalted ▸ hrun) hsent, h.halt⟩
  · rw [he, hfetch] at hstep
    rw [hfetch, hpc] at hsent
    obtain ⟨u, t', hu, ht', hsame⟩ := h.exec hs hs' (decodeWith p.funcCodes s'.fetch)
    cases hu.symm.trans hstep
    exact ⟨t', (stepWith_of_not_isHalt (hhalted ▸ hrun) hsent).trans ht', hsame⟩

theorem runSteps_of_step {u : State} (h : stepWith p s = .next u) (n : Nat) : runSteps p (n + 1) s = runSteps p n u := by
  simp only [runSteps, h]

/-- Over every run, by the step lemma (R31). -/
theorem SameArchitecture.runSteps {n : Nat} (h : SameArchitecture s s') (hs : s.mem.wf = true) (hs' : s'.mem.wf = true)
    (hrun : runSteps p n s = some t) : ∃ t', runSteps p n s' = some t' ∧ SameArchitecture t t' := by
  induction n generalizing s s' with
  | zero =>
    cases hrun
    exact ⟨s', rfl, h⟩
  | succ n ih =>
    obtain ⟨u, hu, hrest⟩ := runSteps_succ hrun
    obtain ⟨u', hu', hsame⟩ := h.stepWith hs hs' hu
    rw [runSteps_of_step hu']
    exact ih hsame (stepWith_mem_wf hs hu) (stepWith_mem_wf hs' hu') hrest

/-! Fetch. -/

/-- A word placed where the next fetch reads is the word fetched. -/
theorem State.fetch_placeWord (hs : s.mem.wf = true) (w : Word) : (s.placeWord w).fetch = w :=
  State.readMem_writeMem_self s.fetchAddr w hs

/-- What the host's decoder reads is the decoder's answer on the word (R70). -/
theorem decodeTableWord_eq_some {nbits w : Nat} {i : Instr} (h : decodeTableWord nbits w = some i) :
    decode (tableWord nbits w) = i := by
  unfold decodeTableWord at h
  split at h
  · exact Option.some.inj h
  · cases h

end Sys2Proof.Machine
end

section
/-! The statements about runs, steps and boots: 10_state.md, 20_memory.md sections 3 and 5, 60_exceptions.md section 4 and
70_reset_and_hazards.md. -/

namespace Sys2Proof.Proofs

open Sys2Proof.Machine Sys2Proof.Claims

/-- Settles O37, by induction on the number of steps over the relation that each step keeps. -/
theorem cachesNeverChangeTheResult : Obligations.CachesNeverChangeTheResult :=
  fun _ _ _ _ _ hs hs' hsame hrun => hsame.runSteps hs hs' hrun

/-- Settles O39: register 0's slot, the memory's form and every level are kept, each by its own lemma. -/
theorem everyStepKeepsTheInvariant : Obligations.EveryStepKeepsTheInvariant :=
  fun _ _ hs => ⟨fun h => hs.stepWith (p := Params.default) h, fun _ h => hs.stepWith h⟩

/-- Settles O36: the store is the sw's own, and no other cell changes. -/
theorem nextFetchSeesTheStore : Obligations.NextFetchSeesTheStore := by
  intro p s rA rB imm hs hrun hsent hdecode
  refine ⟨_, (stepWith_of_not_isHalt hrun hsent).trans (hdecode ▸ exec_sw rA rB imm s), ?_⟩
  rw [State.fetch]
  split_ifs with haddr
  · rw [haddr, readMem_after_sw rA rB imm hs]
  · exact readMem_after_sw_ne rA rB imm s haddr

/-- Settles O40: a boot is the reset state with a loaded memory and fresh levels of legal triples. -/
theorem everyBootIsInOrder : Obligations.EveryBootIsInOrder := by
  intro config image s h
  obtain ⟨hier, m, hc, hm, rfl⟩ := boot_eq_next h
  exact State.Inv.of_reset (loadFrom_wf (m := []) rfl hm) (configure_levels_inv hc)

/-- Settles O41: an access of a level keeps the level's triple. -/
theorem noStepChangesTheConfiguration : Obligations.NoStepChangesTheConfiguration :=
  fun _ _ _ h => stepWith_config h

/-- Settles O54: the report drops the records the trace held before, which leaves those the step appended. -/
theorem stepReportHoldsTheRecordsOfTheStep : Obligations.StepReportHoldsTheRecordsOfTheStep := by
  intro p s t h
  obtain ⟨recs, htrace, hlen⟩ := stepWith_trace h
  have hrecords := stepReport_records htrace
  exact ⟨stepReport s t, stepTransaction_of_next h, rfl, rfl, by rw [hrecords, htrace], by rwa [hrecords]⟩

/-- Settles O28, by the third way of a step. -/
theorem stepRunsTheDecodedInstruction : Obligations.StepRunsTheDecodedInstruction :=
  ⟨fun _ hrun hsent => stepWith_of_not_isHalt (p := Params.default) hrun hsent,
    fun _ _ hrun hsent => stepWith_of_not_isHalt hrun hsent⟩

/-- Settles O29: the step fetches the placed word, and placing changes neither the pc nor the halted bit. -/
theorem placedWordIsTheNextInstruction : Obligations.PlacedWordIsTheNextInstruction := by
  intro s nbits w i hs hrun hdecode hsent
  have hfetch : (s.withFetchWord nbits w).fetch = tableWord nbits w := State.fetch_placeWord hs _
  rw [← decodeTableWord_eq_some hdecode, ← hfetch]
  rw [← hfetch] at hsent
  exact stepWith_of_not_isHalt (p := Params.default) hrun hsent

/-- Settles O38: the reset state has empty memory and no level. -/
theorem resetStateIsInOrder : Obligations.ResetStateIsInOrder :=
  State.Inv.of_reset (m := []) (hier := .noCache) rfl fun _ hc => (List.not_mem_nil hc).elim

end Sys2Proof.Proofs
end

section
/-! SUPPORT. One level's access as a change of its rows: which slot it writes, that the accessed block is held afterwards, and
how old every counter was before (20_memory.md R49 to R60). -/

namespace Sys2Proof.Machine

open Sys2Proof.Claims

/-! Addresses (R49, R50). -/

/-- Two addresses of one block go to one row. -/
theorem rowOf_congr {t : Triple} {a a' : Addr} (h : blockOf t a = blockOf t a') : rowOf t a = rowOf t a' :=
  congrArg (· % t.rowCount) h

theorem tagOf_congr {t : Triple} {a a' : Addr} (h : blockOf t a = blockOf t a') : tagOf t a = tagOf t a' :=
  congrArg (· / t.rowCount) h

theorem blockOf_eq (t : Triple) (a : Addr) : blockOf t a = tagOf t a * t.rowCount + rowOf t a :=
  (Nat.div_add_mod' (blockOf t a) t.rowCount).symm

/-- Among the addresses of one row the tag tells the block (R50). -/
theorem blockOf_eq_iff_tagOf_eq {t : Triple} {a a' : Addr} (hrow : rowOf t a = rowOf t a') :
    blockOf t a = blockOf t a' ↔ tagOf t a = tagOf t a' := by
  refine ⟨tagOf_congr, fun htag => ?_⟩
  rw [blockOf_eq, blockOf_eq t a', htag, hrow]

/-! The slots. -/

variable {c c' : Cache}

/-- An access leaves every row as it was, or writes its line into one slot of its row: the first slot of a direct-mapped row,
and else the one that Place fills (R51 to R54). -/
theorem Cache.access_rows (c : Cache) (kind : AccessKind) (a : Addr) :
    (c.rowHolds (rowOf c.cfg a) (blockOf c.cfg a) = true ∧ ∀ r, (c.access kind a).2.row r = c.row r) ∨
    ∃ i, (i = 0 ∨ i = (firstEmpty (c.row (rowOf c.cfg a))).getD (c.victim (rowOf c.cfg a))) ∧
      SlotReplaced c (c.access kind a).2 (rowOf c.cfg a) i (lineOf c.cfg a) := by
  rcases c.access_cases kind a with ⟨-, h⟩ | ⟨-, h⟩ <;> rw [h]
  · rcases c.accessDirect_cases kind a with ⟨-, h, hheld⟩ | ⟨cls, h, -⟩ <;> rw [h]
    · obtain ⟨tag, hslot⟩ := Slot.getD_holds_iff.mp hheld
      exact .inl ⟨c.rowHolds_iff.mpr ⟨tag, List.mem_of_getElem? hslot⟩, fun _ => rfl⟩
    · exact .inr ⟨0, .inl rfl, c.slotReplaced_setSlot _ _ _⟩
  · rcases c.accessAssoc_cases kind a with ⟨-, h, hheld⟩ | ⟨cls, h, -⟩ <;> rw [h]
    · exact .inl ⟨hheld, fun _ => rfl⟩
    · exact .inr ⟨_, .inr rfl, c.slotReplaced_place _ _ _⟩

/-- Place fills a slot that the row has (R54). -/
theorem Cache.placeSlot_lt {r : Nat} (hne : c.row r ≠ []) :
    (firstEmpty (c.row r)).getD (c.victim r) < (c.row r).length := by
  cases h : firstEmpty (c.row r) with
  | none => exact Cache.victim_lt hne
  | some i => exact (List.getElem?_eq_some_iff.mp (c.isLowestEmpty_of_firstEmpty h).1).1

/-- A level in order has at least one slot in the row of every address (R48). -/
theorem Cache.Inv.row_length_pos (h : c.Inv) (a : Addr) : 0 < (c.row (rowOf c.cfg a)).length := by
  obtain ⟨-, hassoc, -⟩ := h.legal
  rw [h.row_length a]
  exact hassoc

/-- After an access the row holds the accessed block. -/
theorem Cache.Inv.rowHolds_access (h : c.Inv) (kind : AccessKind) (a : Addr) :
    (c.access kind a).2.rowHolds (rowOf c.cfg a) (blockOf c.cfg a) = true := by
  have hpos := h.row_length_pos a
  rcases c.access_rows kind a with ⟨hheld, hrows⟩ | ⟨i, hi, hrow, -⟩
  · rwa [Cache.rowHolds, hrows]
  · have hlt : i < (c.row (rowOf c.cfg a)).length := by
      rcases hi with rfl | rfl
      · exact hpos
      · exact Cache.placeSlot_lt (List.ne_nil_of_length_pos hpos)
    rw [Cache.rowHolds_iff, hrow]
    exact ⟨tagOf c.cfg a, List.mem_set hlt _⟩

/-- On a level in order a load hits where its row holds its block: the one slot of a direct-mapped row is the whole row. -/
theorem Cache.Inv.load_hits (h : c.Inv) {a : Addr}
    (hheld : c.rowHolds (rowOf c.cfg a) (blockOf c.cfg a) = true) : (c.access .load a).1 = .hit := by
  by_cases hassoc : c.cfg.assoc = 1
  · have hlen : (c.row (rowOf c.cfg a)).length = 1 := (h.row_length a).trans hassoc
    obtain ⟨x, hx⟩ := List.length_eq_one_iff.mp hlen
    have hslot : ((c.row (rowOf c.cfg a))[0]?.getD Slot.empty).holds (blockOf c.cfg a) = true := by
      simpa [Cache.rowHolds, hx] using hheld
    rw [Cache.access_of_direct hassoc, Cache.accessDirect_load, if_pos hslot]
  · rw [Cache.access_of_assoc hassoc, Cache.accessAssoc_load, if_pos hheld]

/-- Writing a line into a slot empties none. -/
theorem occupied_of_slotReplaced {r r' i j b tag : Nat} {x : Slot} (h : SlotReplaced c c' r j x)
    (hx : ∃ b' tag', x = .occupied b' tag') (hslot : (c.row r')[i]? = some (.occupied b tag)) :
    ∃ b' tag', (c'.row r')[i]? = some (.occupied b' tag') := by
  obtain ⟨hrow, hrest, -⟩ := h
  by_cases hr : r' = r
  · subst hr
    obtain ⟨hi, -⟩ := List.getElem?_eq_some_iff.mp hslot
    obtain ⟨b', tag', rfl⟩ := hx
    rw [hrow]
    by_cases hij : j = i
    · subst hij
      exact ⟨b', tag', List.getElem?_set_self hi⟩
    · exact ⟨b, tag, (List.getElem?_set_ne hij).trans hslot⟩
  · exact ⟨b, tag, (congrArg (·[i]?) (hrest r' hr)).trans hslot⟩

/-! A row of one slot (R60). -/

theorem Cache.oneSlot_rowHolds {r : Nat} (h : (c.row r).length = 1) (b : Nat) :
    c.rowHolds r b = ((c.row r)[0]?.getD Slot.empty).holds b := by
  obtain ⟨x, hx⟩ := List.length_eq_one_iff.mp h
  simp [Cache.rowHolds, hx]

/-- In a row of one slot Place fills that slot, as the direct algorithm does. -/
theorem Cache.place_row_of_oneSlot {r : Nat} (h : (c.row r).length = 1) (b tag r' : Nat) :
    (c.place r b tag).row r' = (c.setSlot r 0 (.occupied b tag)).row r' := by
  have hlt := Cache.placeSlot_lt (List.ne_nil_of_length_pos (h ▸ Nat.one_pos))
  rw [Cache.place_row, Cache.row_setSlot, Nat.lt_one_iff.mp (hlt.trans_eq h)]

/-! Counters along a sequence of accesses (R58, R59). -/

/-- A counter found after a set-associative access is 0, if its block is the one accessed, or one more than it was: an eviction
only removes entries. -/
theorem Cache.recFind_accessAssoc_cases {kind : AccessKind} {a : Addr} {k n : Nat}
    (h : recFind (c.accessAssoc kind a).2.recency k = some n) :
    (k = blockOf c.cfg a ∧ n = 0) ∨ (k ≠ blockOf c.cfg a ∧ ∃ m, recFind c.recency k = some m ∧ n = m + 1) := by
  by_cases hk : k = blockOf c.cfg a
  · rw [hk, Cache.recFind_accessAssoc_self] at h
    cases h
    exact .inl ⟨hk, rfl⟩
  · have hold : (recFind c.recency k).map (· + 1) = some n := by
      rcases c.accessAssoc_cases kind a with ⟨-, he, -⟩ | ⟨cls, he, -⟩ <;> rw [he] at h
      · rwa [Cache.touch_recency, recFind_recTouch, if_neg hk] at h
      · by_cases hempty : Slot.empty ∈ c.row (rowOf c.cfg a)
        · rwa [Cache.recFind_place_of_empty c hempty hk] at h
        · rw [Cache.recFind_place_of_full c hempty hk] at h
          split at h
          · cases h
          · exact h
    obtain ⟨m, hm, rfl⟩ := Option.map_eq_some_iff.mp hold
    exact .inr ⟨hk, m, hm, rfl⟩

theorem Cache.after_cons (c : Cache) (kind : AccessKind) (a : Addr) (earlier : List (AccessKind × Addr)) :
    c.after ((kind, a) :: earlier) = ((c.after earlier).access kind a).2 := rfl

@[simp] theorem Cache.after_cfg (c : Cache) (accesses : List (AccessKind × Addr)) : (c.after accesses).cfg = c.cfg := by
  induction accesses with
  | nil => rfl
  | cons e earlier ih =>
    obtain ⟨kind, a⟩ := e
    rw [Cache.after_cons, Cache.access_cfg, ih]

/-- A level that starts with no counter counts, for each block, the accesses since the last one to it (R58, R59). -/
theorem Cache.recFind_after (hassoc : c.cfg.assoc ≠ 1) (hempty : c.recency = [])
    (accesses : List (AccessKind × Addr)) {k n : Nat} (h : recFind (c.after accesses).recency k = some n) :
    accesses.findIdx? (fun e => decide (blockOf c.cfg e.2 = k)) = some n := by
  induction accesses generalizing n with
  | nil =>
    rw [Cache.after, hempty] at h
    cases h
  | cons e earlier ih =>
    obtain ⟨kind, a⟩ := e
    have hassoc' : (c.after earlier).cfg.assoc ≠ 1 := by rwa [Cache.after_cfg]
    rw [Cache.after_cons, Cache.access_of_assoc hassoc'] at h
    rcases Cache.recFind_accessAssoc_cases h with ⟨hk, rfl⟩ | ⟨hk, m, hm, rfl⟩ <;> rw [Cache.after_cfg] at hk
    · simp [List.findIdx?_cons, hk]
    · simp [List.findIdx?_cons, hk.symm, ih hm]

end Sys2Proof.Machine
end

section
/-! The statements of 20_memory.md section 4 about a level's slots and counters. -/

namespace Sys2Proof.Proofs

open Sys2Proof.Machine Sys2Proof.Claims

/-- Settles O42, by quotient and remainder: by the blocksize for the block, by the row count for row and tag. -/
theorem addressDecompositionIsExact : Obligations.AddressDecompositionIsExact := by
  intro t hlegal a a'
  have ⟨_, _, hblock, _⟩ := hlegal
  refine ⟨rowOf_lt hlegal a, Nat.div_mul_le_self a.toNat t.blockSize, ?_, blockOf_eq t a, blockOf_eq_iff_tagOf_eq⟩
  rw [Nat.mul_comm]
  exact Nat.lt_mul_div_succ a.toNat hblock

/-- Settles O47, by induction on the accesses, from the fresh level's empty recency map. -/
theorem counterIsTheNumberOfAccessesSince : Obligations.CounterIsTheNumberOfAccessesSince :=
  fun t hassoc accesses _ _ h => Cache.recFind_after (c := Cache.fresh t) hassoc rfl accesses h

/-- Settles O48: the row's one slot is the whole row, and the slot that Place fills. -/
theorem directAndAssociativeAgreeOnOneSlot : Obligations.DirectAndAssociativeAgreeOnOneSlot := by
  intro c kind a hrow
  have hplace := fun r => (Cache.place_row_of_oneSlot hrow (blockOf c.cfg a) (tagOf c.cfg a) r).symm
  cases kind with
  | store => exact ⟨rfl, hplace⟩
  | load =>
    rw [Cache.accessDirect_load, Cache.accessAssoc_load, Cache.oneSlot_rowHolds hrow]
    split
    · exact ⟨rfl, fun _ => rfl⟩
    · exact ⟨rfl, hplace⟩

/-- Settles O49: the access leaves its block in its row, and the level in order. -/
theorem loadAfterAnAccessHits : Obligations.LoadAfterAnAccessHits := by
  intro c h kind a a' hblock
  refine (h.access kind a).load_hits ?_
  rw [Cache.access_cfg, hblock, rowOf_congr hblock]
  exact h.rowHolds_access kind a

/-- Settles O50: an access that writes a slot writes a line into it. -/
theorem occupiedSlotsStayOccupied : Obligations.OccupiedSlotsStayOccupied := by
  intro c kind a r i b tag hslot
  rcases c.access_rows kind a with ⟨-, hrows⟩ | ⟨j, -, hreplaced⟩
  · exact ⟨b, tag, by rwa [hrows]⟩
  · exact occupied_of_slotReplaced hreplaced ⟨_, _, rfl⟩ hslot

end Sys2Proof.Proofs
end
